-- ==== Sys2Proof/Word.lean ====
section
/-! DEFINITION. The two sizes of data PKTQ moves: the byte (R10) and the 160-bit packet value (R14). -/

namespace Sys2Proof

/-- A byte: 8 bits, unsigned (R10). -/
abbrev Byte := BitVec 8

/-- A packet value: 160 bits in the layout of R54. Any 160-bit value is one (R14, R109). -/
abbrev Packet := BitVec 160

end Sys2Proof
end

