-- ==== Sys2Proof/Config.lean ====
section
/-! DEFINITION. The parameters of R7 with the value this hardware takes, the parameters the spec leaves
OPEN, and the free values. An `opaque` constant has no body: no proof can learn anything about its value. -/

namespace Sys2Proof.Config

/-- `PACKET_SIZE`: bytes of one packet on the wire (R7, R53). -/
abbrev packetSize : Nat := 20

/-- `DATA_SIZE`: bytes of payload (R7, R53). -/
abbrev dataSize : Nat := 16

/-- `C`: queue capacity in elements (R7, R8; 90_conflicts.md C2). The queue's operations are written for every
`C >= 1`; this is the value of this hardware. -/
abbrev capacity : Nat := 30

/-- `ELEM_W`: bits of one queue element (R7). -/
abbrev elemW : Nat := 160

/-- `LEN_IN_W`: width of `cmd_len` (R7, R63). -/
abbrev lenInW : Nat := 8

/-- `ceil(log2 n)`, for `n >= 1`. -/
def ceilLog2 (n : Nat) : Nat := if n ≤ 1 then 0 else Nat.log2 (n - 1) + 1

/-- `IDX_W` as R7 computes it from the capacity. -/
def indexWidth (C : Nat) : Nat := max 1 (ceilLog2 C)

/-- `LEN_W` as R7 computes it from the capacity. -/
def lengthWidth (C : Nat) : Nat := ceilLog2 (C + 1)

/-- `IDX_W` of this hardware (R7): the width of the registers HEAD and TAIL. -/
abbrev idxW : Nat := 5

/-- `LEN_W` of this hardware (R7): the width of the register LENGTH and of `rsp_size`. -/
abbrev lenW : Nat := 5

/-- The two checksum functions the spec names (R84). -/
inductive ChecksumKind where
  | xor8
  | sum8
  deriving DecidableEq, Repr

/-- `CHECKSUM`: this hardware takes XOR8 (R7, R84; decision D7). -/
def checksum : ChecksumKind := .xor8

/-- The two kinds of reset R7 names. -/
inductive ResetKind where
  | synchronous
  | asynchronous
  deriving DecidableEq, Repr, Inhabited

/-- `RESET_KIND`: OPEN (R7, R133). No rule depends on it, so nothing in the model reads it. -/
opaque resetKind : ResetKind

/-- `LAT` less one: OPEN (R7, R145). -/
opaque latencyBeyondOne : Nat

/-- `LAT`: cycles from command to response, OPEN, at least 1 (R7). The model has no time and no rule depends on it
(R145), so nothing in the model reads it. -/
def latency : Nat := latencyBeyondOne + 1

/-- `ARB`: OPEN, a free draw per conflict (R7, R124). `true`: port P's command goes first in the conflict of that
draw number. -/
opaque arbPFirst : Nat → Bool

/-- The bound on the wait of an outstanding command that R124 says exists and gives no value for: once more than this
many commands of the other port were linearised ahead of it, a waiting command goes first at the next conflict, and a
response that is due is presented (log entry 7). -/
opaque arbPatience : Nat

/-- What `rsp_size` carries where R70 says UNSPEC: a fresh draw per response (R74). -/
opaque unspecSize : Nat → BitVec lenW

/-- What `rsp_data` carries where R70 says UNSPEC: a fresh draw per response (R74). -/
opaque unspecData : Nat → Packet

/-- What a queue slot that nothing has written since reset reads as: unspecified (R35, R33). -/
opaque slotContent : Nat → Packet

end Sys2Proof.Config
end

