-- ==== Sys2Proof/Syntax.lean ====
section
/-! DEFINITION. The commands: ports, the command signals, the eight rows of the opcode map as one inductive, and
the command lines of R75. -/

namespace Sys2Proof

/-- The two command ports (R62): P, the producer's, and K, the consumer's. -/
inductive Port where
  | P
  | K
  deriving DecidableEq, Repr

/-- The other of the two ports. -/
def Port.other : Port → Port
  | .P => .K
  | .K => .P

/-- The command signals of a port, less `cmd_valid` (R63). Both ports have the same signals (R62). -/
structure Command where
  op   : BitVec 3
  len  : BitVec 8
  data : BitVec 160
  deriving DecidableEq, Repr

/-- A command with the operands its format reads (R65): one constructor per row of the opcode map (R66). Its port is
no part of it: both ports have the same opcode map (R62). -/
inductive Instr where
  /-- `cmd_op = 0b000`, CMD_RAW (R80). -/
  | decode (len : BitVec 8) (data : BitVec 160)
  /-- `cmd_op = 0b001`, CMD_PKT (R83). -/
  | validate (p : Packet)
  /-- `cmd_op = 0b010`, CMD_PKT (R97). -/
  | push (v : Packet)
  /-- `cmd_op = 0b011`, CMD_NONE (R99). -/
  | pop
  /-- `cmd_op = 0b100`, CMD_NONE (R102). -/
  | isEmpty
  /-- `cmd_op = 0b101`, CMD_NONE (R104). -/
  | isFull
  /-- `cmd_op = 0b110`, CMD_NONE (R106). -/
  | size
  /-- `cmd_op = 0b111`, CMD_NONE: the reserved opcode (R108). -/
  | reserved
  deriving DecidableEq, Repr

/-- The command formats (R65). -/
inductive Format where
  | cmdRaw
  | cmdPkt
  | cmdNone
  deriving DecidableEq, Repr

/-- The nine known packet types (R57). -/
inductive PacketType where
  | hello
  | ack
  | p1Imu
  | p1IrRecv
  | p1IrTrans
  | p2Imu
  | p2IrRecv
  | p2IrTrans
  | gameStat
  deriving DecidableEq, Repr

/-- A command line of R75: the port, then the mnemonic with its length and its bytes in wire order. -/
inductive CommandLine where
  | decode (port : Port) (len : Nat) (bytes : List Byte)
  | validate (port : Port) (bytes : List Byte)
  | push (port : Port) (bytes : List Byte)
  | pop (port : Port)
  | isEmpty (port : Port)
  | isFull (port : Port)
  | size (port : Port)
  | reserved (port : Port)
  deriving DecidableEq, Repr

end Sys2Proof
end

