-- ==== Sys2Proof/WellFormed.lean ====
section
/-! DEFINITION. Which command lines of R75 are well formed. An `Instr` needs no such check: every value of
`cmd_len` and of `cmd_data` is legal for every command that reads it (R68), and the constructors' types give the
operands their widths. -/

namespace Sys2Proof

/-- The length of a DECODE line fits `cmd_len` (R69), and the line writes `min len 20` bytes (R75: the form stops at `b19`,
and with `len < 20` only the first `len` bytes are written) or all `len` of them (95_test_vectors.md, L3-2 row 4, writes
21 bytes for `len` 21). DESIGN CHOICE (log entry 20): R75 does not say whether a line may write bytes beyond `b19`; the
model takes both forms, and a line that writes some other number of bytes is ill formed. The packet of a VALIDATE or PUSH line is written as 20 bytes (R75). -/
def CommandLine.wf : CommandLine → Bool
  | .decode _ len bytes => decide (len < 256) && decide (bytes.length = min len Config.packetSize ∨ bytes.length = len)
  | .validate _ bytes => decide (bytes.length = Config.packetSize)
  | .push _ bytes => decide (bytes.length = Config.packetSize)
  | .pop _ => true
  | .isEmpty _ => true
  | .isFull _ => true
  | .size _ => true
  | .reserved _ => true

end Sys2Proof
end

