-- ==== Sys2Proof/Decode.lean ====
section
/-! DEFINITION. The two encodings of 30_encoding.md: the wire format of a packet (section 1), and the command
encoding, its decoder and its encoder (section 2), with the assembling of a command line (section 3). -/

namespace Sys2Proof

/-! ### The packet wire format -/

namespace Packet

/-- `byte(p, i) = p[8i+7 : 8i]` (R14, R55). -/
def byte (p : Packet) (i : Nat) : Byte := p.extractLsb' (8 * i) 8

/-- `meta(p) = p[7:0]` (R55). -/
def metadata (p : Packet) : Byte := p.extractLsb' 0 8

/-- `ptype(p) = p[7:4]` (R55). -/
def ptype (p : Packet) : BitVec 4 := p.extractLsb' 4 4

/-- `pad(p) = p[3:0]` (R55). -/
def pad (p : Packet) : BitVec 4 := p.extractLsb' 0 4

/-- `seq(p) = p[23:8]` (R55). -/
def seq (p : Packet) : BitVec 16 := p.extractLsb' 8 16

/-- `data(p, j) = p[8j+31 : 8j+24]`, for `j` in 0..15 (R55). -/
def data (p : Packet) (j : Nat) : Byte := p.extractLsb' (8 * j + 24) 8

/-- The whole payload, `p[151:24]` (R54). -/
def payload (p : Packet) : BitVec 128 := p.extractLsb' 24 128

/-- `cks(p) = p[159:152]` (R55). -/
def cks (p : Packet) : Byte := p.extractLsb' 152 8

/-- The wire image `bytes(p)`: byte 0 first (R61). It is also the spec-level encoder `encode(p)` (R86). -/
def bytes (p : Packet) : List Byte := (List.range Config.packetSize).map (byte p)

/-- `pack(w) = {w[19], ..., w[0]}`, with `w[0]` in bits 7:0 (R61). A byte at offset 20 or beyond has no lane and is
dropped (R80: `pack(raw[0..19])`); a lane that `w` does not reach is zero. -/
def pack : List Byte → Packet
  | [] => 0
  | b :: rest => (pack rest <<< 8) ||| b.setWidth 160

/-- The payload bytes that are not padding: `data[0..15-n]` for padding count `n` (R58). -/
def meaningful (p : Packet) : List Byte := (List.range (Config.dataSize - (pad p).toNat)).map (data p)

end Packet

/-- The type a type ID names; none for the reserved values 9 to 15 (R57). -/
def packetTypeOf (t : BitVec 4) : Option PacketType :=
  match t.toNat with
  | 0 => some .hello
  | 1 => some .ack
  | 2 => some .p1Imu
  | 3 => some .p1IrRecv
  | 4 => some .p1IrTrans
  | 5 => some .p2Imu
  | 6 => some .p2IrRecv
  | 7 => some .p2IrTrans
  | 8 => some .gameStat
  | _ => none

/-! ### The command encoding -/

/-- The command decoder (R66, R77, R78): the opcode alone selects the row, and the row's format says which operand
signals are read. Every value of every signal decodes. -/
def decode (c : Command) : Instr :=
  match c.op with
  | 0b000#3 => .decode c.len c.data
  | 0b001#3 => .validate c.data
  | 0b010#3 => .push c.data
  | 0b011#3 => .pop
  | 0b100#3 => .isEmpty
  | 0b101#3 => .isFull
  | 0b110#3 => .size
  | 0b111#3 => .reserved

/-- `cmd_op` of a command (R66). -/
def Instr.opcode : Instr → BitVec 3
  | .decode _ _ => 0b000#3
  | .validate _ => 0b001#3
  | .push _ => 0b010#3
  | .pop => 0b011#3
  | .isEmpty => 0b100#3
  | .isFull => 0b101#3
  | .size => 0b110#3
  | .reserved => 0b111#3

/-- The format of a command (R65). -/
def Instr.format : Instr → Format
  | .decode _ _ => .cmdRaw
  | .validate _ => .cmdPkt
  | .push _ => .cmdPkt
  | .pop => .cmdNone
  | .isEmpty => .cmdNone
  | .isFull => .cmdNone
  | .size => .cmdNone
  | .reserved => .cmdNone

/-- The mnemonic of R66, as the opcode table spells it. -/
def Instr.mnemonic : Instr → String
  | .decode _ _ => "DECODE"
  | .validate _ => "VALIDATE"
  | .push _ => "PUSH"
  | .pop => "POP"
  | .isEmpty => "IS_EMPTY"
  | .isFull => "IS_FULL"
  | .size => "SIZE"
  | .reserved => "RESERVED"

/-- The encoder: the signals that present a command. A signal the format does not list is driven as zero; the block
ignores it (R65). -/
def encode (i : Instr) : Command :=
  match i with
  | .decode len data => { op := i.opcode, len := len, data := data }
  | .validate p => { op := i.opcode, len := 0, data := p }
  | .push v => { op := i.opcode, len := 0, data := v }
  | .pop => { op := i.opcode, len := 0, data := 0 }
  | .isEmpty => { op := i.opcode, len := 0, data := 0 }
  | .isFull => { op := i.opcode, len := 0, data := 0 }
  | .size => { op := i.opcode, len := 0, data := 0 }
  | .reserved => { op := i.opcode, len := 0, data := 0 }

/-- A command as one number: `cmd_data` above `cmd_len` above `cmd_op`, with `cmd_op` in bits 2:0 as the opcode table
has it. DESIGN CHOICE (log entry 1): the spec gives the signals separately and packs them nowhere. -/
def Command.toWord (c : Command) : Nat := c.op.toNat + 8 * c.len.toNat + 2048 * c.data.toNat

/-- The command whose packed word is `w` (log entry 1). -/
def Command.ofWord (w : Nat) : Command where
  op := BitVec.ofNat 3 w
  len := BitVec.ofNat 8 (w / 8)
  data := BitVec.ofNat 160 (w / 2048)

/-- The instruction the decoder reads from a table word of `nbits` bits, every bit above them zero (log entry 1). -/
def decodeTableWord (nbits w : Nat) : Option Instr := some (decode (Command.ofWord (w % 2 ^ nbits)))

/-! ### Presenting a command -/

/-- `cmd_len` for a raw chunk: its length, saturated at 255 by the producer (R63, R69). -/
def chunkLen (raw : List Byte) : BitVec 8 := BitVec.ofNat 8 (min raw.length 255)

/-- `cmd_data` for a raw chunk: lane `i` carries `raw[i]`; a lane the chunk does not reach carries no meaning and is
whatever `idle` has there (R69). -/
def chunkLanes (raw : List Byte) (idle : Packet) : Packet :=
  Packet.pack ((List.range Config.packetSize).map fun i => (raw[i]?).getD (Packet.byte idle i))

/-- The port and the command of a well-formed command line (R75); none for an ill-formed one. -/
def assemble (idle : Packet) (l : CommandLine) : Option (Port × Command) :=
  if l.wf then
    match l with
    | .decode port len bytes => some (port, encode (.decode (BitVec.ofNat 8 len) (chunkLanes bytes idle)))
    | .validate port bytes => some (port, encode (.validate (Packet.pack bytes)))
    | .push port bytes => some (port, encode (.push (Packet.pack bytes)))
    | .pop port => some (port, encode .pop)
    | .isEmpty port => some (port, encode .isEmpty)
    | .isFull port => some (port, encode .isFull)
    | .size port => some (port, encode .size)
    | .reserved port => some (port, encode .reserved)
  else none

end Sys2Proof
end

