-- ==== Sys2Proof/Machine/State.lean ====
section
/-! DEFINITION. The state: the queue (R21), what each port holds (R34), the reset input, and the model's own fields
(the schedule, the draw counter, the port being served). All of it is plain data. -/

namespace Sys2Proof.Machine

/-- The status codes of `rsp_status` (R72). Codes 6 and 7 are never driven, so they have no name here. -/
inductive Status where
  | ok
  | tooShort
  | validationFailure
  | queueFull
  | queueEmpty
  | illegalCommand
  deriving DecidableEq, Repr

/-- A response field as it is driven: a value the rules give, or UNSPEC with the free draw it carries (R74). -/
inductive Driven (w : Nat) where
  | value (v : BitVec w)
  | unspec (draw : BitVec w)
  deriving DecidableEq, Repr

/-- The response signals, less `rsp_valid` (R64). -/
structure Response where
  status : Status
  flag   : Bool
  size   : Driven Config.lenW
  data   : Driven Config.elemW
  deriving DecidableEq, Repr

/-- What a port holds. -/
structure PortState where
  /-- The outstanding command's operands, latched until its response (R34, R122). -/
  latch     : Option Command
  /-- Its response, from its linearisation point until it is presented (R46, R122). -/
  result    : Option Response
  /-- How many of the other port's commands were linearised ahead of the outstanding command's next move: conflicts it
  lost while it waits to be linearised, commands that passed it while its response is due (the bounded wait of R124, log
  entry 7). The model's own. -/
  losses    : Nat
  /-- The responses presented on the port so far, the latest first (R147). -/
  responses : List Response
  deriving DecidableEq, Repr

/-- The architectural state of the queue (R21), for any capacity `C >= 1` (R8) and any element type (R109). The bounds
of R21 are in the types: HEAD and TAIL are below `C`, LENGTH is at most `C`. A slot is none while nothing has
written it since reset (R33). -/
structure Queue (C : Nat) (T : Type) where
  head   : Fin C
  tail   : Fin C
  length : Fin (C + 1)
  qstore : Vector (Option T) C
  deriving DecidableEq, Repr

/-- The response fields a host may read (R64). -/
inductive Field where
  | status
  | flag
  | size
  | data
  deriving DecidableEq, Repr

/-- One entry of the schedule: a move of an agent outside (R121), or of the block. -/
inductive Event where
  /-- A host raises `cmd_valid` with a command (R122). -/
  | present (port : Port) (c : Command)
  /-- A host's signals are now these; none: `cmd_valid` low (R122, R123). -/
  | drive (port : Port) (signals : Option Command)
  /-- A host reads a field of the response last presented to it (R123). -/
  | read (port : Port) (field : Field)
  /-- The reset source asserts or releases reset (R133, R135). -/
  | reset (asserted : Bool)
  /-- The block loses power (R131). -/
  | powerLoss
  /-- The block linearises one outstanding command, if there is one (R46). -/
  | linearise
  /-- The block presents the response of a linearised command (R122). -/
  | deliver (port : Port)
  deriving DecidableEq, Repr

structure State where
  /-- HEAD, TAIL, LENGTH and QSTORE (R21). -/
  queue         : Queue Config.capacity Packet
  portP         : PortState
  portK         : PortState
  /-- The port whose command is at its linearisation point: the `port` argument of R110. -/
  serving       : Port
  /-- Whether the reset input is asserted (R135). -/
  resetAsserted : Bool
  /-- The moves still to come, in their order in time; when it is empty, only the block moves. The model's own. -/
  schedule      : List Event
  /-- How many free draws have been made: each draw takes the next number. The model's own. -/
  draws         : Nat
  deriving DecidableEq, Repr

/-- PKTQ has no trap, exception or fault (R113): no step of the machine ends in one. -/
inductive Fault : Type
  deriving DecidableEq, Repr

/-- Why the model gives a run no meaning (R148, R131). Every one is safe: the model stops where the hardware goes on
in a way the spec does not give. No command's meaning raises one. -/
inductive Refusal where
  /-- Raised by an arm of `exec` whose instruction has no meaning yet; there is none. Safe. -/
  | notModelled (mnemonic : String)
  /-- Raised when a host presents a command on a port that has one outstanding (R148, R123). Safe. -/
  | secondCommand (port : Port)
  /-- Raised when a host changes the operands of an outstanding command, or drops its `cmd_valid` (R148, R122). Safe. -/
  | operandsChanged (port : Port)
  /-- Raised when a host reads a response field marked UNSPEC (R148, R74). Safe. -/
  | unspecRead (port : Port) (field : Field)
  /-- Raised when a host reads a response field before any response was presented on its port. Safe. -/
  | noResponse (port : Port) (field : Field)
  /-- Raised when the block loses power: a claim across power loss has no meaning (R131). Safe. -/
  | powerLost
  deriving DecidableEq, Repr

/-- A port with nothing outstanding and no response presented yet (R35). -/
def PortState.reset : PortState := { latch := none, result := none, losses := 0, responses := [] }

/-- The machine right after reset (R35, R133): HEAD, TAIL and LENGTH are 0, no slot is written, nothing is outstanding. -/
def State.reset : State where
  queue := { head := 0, tail := 0, length := 0, qstore := Vector.replicate Config.capacity none }
  portP := PortState.reset
  portK := PortState.reset
  serving := .P
  resetAsserted := false
  schedule := []
  draws := 0

end Sys2Proof.Machine
end

