-- ==== Sys2Proof/Machine/Ops.lean ====
section
/-! DEFINITION. The named operations over the queue's registers and storage (for every capacity), over the ports, and
the two ways a command ends: `respond` and `raise` (R13). PKTQ takes no exception and returns from none (R113, R116):
`raise` is the one shared operation by which a command fails. -/

namespace Sys2Proof.Machine

/-! ### The queue -/

namespace Queue

variable {C : Nat} {T : Type}

/-- `C >= 1` (R8): HEAD is an index below `C`. -/
theorem capacity_pos (q : Queue C T) : 0 < C := Nat.lt_of_le_of_lt (Nat.zero_le _) q.head.isLt

/-- `next(i) = (i + 1) mod C` (R96). -/
def next (i : Fin C) : Fin C := ⟨(i.val + 1) % C, Nat.mod_lt _ (Nat.lt_of_le_of_lt (Nat.zero_le _) i.isLt)⟩

/-- `MemRead(i, 1)`: the element in slot `i` (R12, R40); none where nothing was written since reset (R33). -/
def memRead (q : Queue C T) (i : Fin C) : Option T := q.qstore[i.val]

/-- `MemWrite(i, 1, v)`: slot `i` becomes `v` (R12, R40). -/
def memWrite (q : Queue C T) (i : Fin C) (v : T) : Queue C T :=
  { q with qstore := q.qstore.set i.val (some v) }

/-- The slot of the element at position `i` from the oldest: `(HEAD + i) mod C` (R27). -/
def slot (q : Queue C T) (i : Nat) : Fin C := ⟨(q.head.val + i) % C, Nat.mod_lt _ q.capacity_pos⟩

/-- The queue after PUSH(v), or none when it is full (R97): `QSTORE[TAIL] <- v`, `TAIL <- next(TAIL)`,
`LENGTH <- LENGTH + 1`. -/
def push (q : Queue C T) (v : T) : Option (Queue C T) :=
  if h : q.length.val = C then none
  else some { q.memWrite q.tail v with
    tail := next q.tail
    length := ⟨q.length.val + 1, by have := q.length.isLt; omega⟩ }

/-- What POP() reads and the queue after it, or none when it is empty (R99): `v <- QSTORE[HEAD]`,
`HEAD <- next(HEAD)`, `LENGTH <- LENGTH - 1`. -/
def pop (q : Queue C T) : Option (Option T × Queue C T) :=
  if q.length.val = 0 then none
  else some (q.memRead q.head, { q with
    head := next q.head
    length := ⟨q.length.val - 1, by have := q.length.isLt; omega⟩ })

/-- RESET(): HEAD, TAIL and LENGTH become 0; QSTORE is not written (R133). -/
def reset (q : Queue C T) : Queue C T :=
  { q with head := ⟨0, q.capacity_pos⟩, tail := ⟨0, q.capacity_pos⟩, length := ⟨0, Nat.succ_pos _⟩ }

end Queue

/-! ### The ports -/

namespace PortState

/-- The port's command that is outstanding and not yet linearised. -/
def waiting (ps : PortState) : Option Command :=
  match ps.result with
  | none => ps.latch
  | some _ => none

/-- The port once its response is presented: nothing is outstanding (R122). -/
def delivered (ps : PortState) : PortState :=
  match ps.result with
  | none => ps
  | some r => { latch := none, result := none, losses := 0, responses := r :: ps.responses }

/-- The port when a command of the other port is linearised ahead of its own next move. A waiting command has lost one
more conflict. A response that is due has been passed once more, but for one that was passed more often than the bound:
it is presented first, so that the command is answered however busy the other port is (R124, log entry 7). -/
def passedOver (ps : PortState) : PortState :=
  match ps.result, ps.latch with
  | none, none => ps
  | none, some _ => { ps with losses := ps.losses + 1 }
  | some _, _ => if Config.arbPatience < ps.losses then ps.delivered else { ps with losses := ps.losses + 1 }

/-- The port when reset is asserted: its command is abandoned and no response is returned for it (R134). -/
def abandoned (ps : PortState) : PortState := { ps with latch := none, result := none, losses := 0 }

end PortState

namespace State

/-- What port `p` holds. -/
def port (s : State) : Port → PortState
  | .P => s.portP
  | .K => s.portK

/-- The state in which port `p` holds `ps`. -/
def setPort (s : State) (p : Port) (ps : PortState) : State :=
  match p with
  | .P => { s with portP := ps }
  | .K => { s with portK := ps }

/-! ### How a command ends -/

/-- A response field: the value the rule gives, or the draw it carries where the rule says UNSPEC (R74). -/
def driven {w : Nat} (given : Option (BitVec w)) (draw : BitVec w) : Driven w :=
  match given with
  | some v => .value v
  | none => .unspec draw

/-- The response with these fields (R70); a field given as none is UNSPEC and takes this state's draw (R74). -/
def response (s : State) (status : Status) (flag : Bool) (size : Option (BitVec Config.lenW))
    (data : Option Packet) : Response where
  status := status
  flag := flag
  size := driven size (Config.unspecSize s.draws)
  data := driven data (Config.unspecData s.draws)

/-- `respond(status, flag, size, data)` on the port being served (R13), with none for UNSPEC. The next response takes
draws of its own (R74). -/
def respond (s : State) (status : Status) (flag : Bool) (size : Option (BitVec Config.lenW))
    (data : Option Packet) : State :=
  { s.setPort s.serving { s.port s.serving with result := some (s.response status flag size data) } with
    draws := s.draws + 1 }

/-- `raise <Status>()`: the command completes with that status, `rsp_flag = 0`, every other field UNSPEC and no state
write (R13). It is no trap. -/
def raise (s : State) (status : Status) : State := s.respond status false none none

/-- ILLEGAL() (R108): a reserved opcode, or a command illegal on its port. -/
def illegal (s : State) : State := s.raise .illegalCommand

end State

end Sys2Proof.Machine
end

