-- ==== Sys2Proof/Machine/Operands.lean ====
section
/-! DEFINITION. The operand forms: the raw chunk of DECODE (R80), the LENGTH that SIZE answers (R106), the element POP
reads (R99), and which commands a port may run (R67). The block reads no other operand (R69). -/

namespace Sys2Proof.Machine

/-- The packet DECODE unpacks from its operands, none where the chunk is too short (R80): the 20 lanes are the packet,
and no lane is used when `cmd_len < 20` (R81). -/
def unpack (len : BitVec 8) (data : BitVec 160) : Option Packet :=
  if len.toNat < Config.packetSize then none else some data

/-- DECODE of a raw byte sequence of any length (R80). -/
def unpackRaw (raw : List Byte) : Option Packet :=
  if raw.length < Config.packetSize then none else some (Packet.pack (raw.take Config.packetSize))

/-- `rsp_size` of SIZE: LENGTH, widened to `LEN_W` bits (R106). -/
def sizeField {C : Nat} {T : Type} (q : Queue C T) : BitVec Config.lenW := BitVec.ofNat Config.lenW q.length.val

/-- HEAD and TAIL as the `IDX_W`-bit registers R21 names. Every index fits; the encodings 30 and 31 are those of no
index (R22, R23). -/
def indexBits (i : Fin Config.capacity) : BitVec Config.idxW := BitVec.ofNat Config.idxW i.val

/-- The element a slot gives when POP reads it. A slot nothing has written since reset holds an unspecified value (R35),
a free draw. -/
def State.element (s : State) (slot : Option Packet) : Packet := slot.getD (Config.slotContent s.draws)

/-- Port legality (R67). -/
def legalOn (i : Instr) (p : Port) : Bool :=
  match i with
  | .decode _ _ => true
  | .validate _ => true
  | .push _ => decide (p = .P)
  | .pop => decide (p = .K)
  | .isEmpty => true
  | .isFull => true
  | .size => true
  | .reserved => false

end Sys2Proof.Machine
end

