-- ==== Sys2Proof/Machine/Flags.lean ====
section
/-! DEFINITION. Every flag computation: the checksum and the three checks of VALIDATE (R83, R84), the predicates of
IS_EMPTY and IS_FULL (R32), and the numbers of the status codes (R72). PKTQ stores no flag: `rsp_flag` is a part of
one response (R32). -/

namespace Sys2Proof.Machine

/-- Wire bytes 0 to 18 of a packet: what the checksum covers (R60, R84). -/
def covered (p : Packet) : List Byte := (List.range 19).map (Packet.byte p)

/-- XOR8 (R84). -/
def xor8 (p : Packet) : Byte := (covered p).foldl (· ^^^ ·) 0

/-- SUM8, the alternative R84 names. -/
def sum8 (p : Packet) : Byte := (covered p).foldl (· + ·) 0

/-- The checksum function of a kind (R84). -/
def checksumOf : Config.ChecksumKind → Packet → Byte
  | .xor8 => xor8
  | .sum8 => sum8

/-- `cks_ok` of VALIDATE (R83), under the checksum function `k`. -/
def cksOk (k : Config.ChecksumKind) (p : Packet) : Bool := Packet.cks p == checksumOf k p

/-- `type_ok` of VALIDATE (R83): one of the nine known types. -/
def typeOk (p : Packet) : Bool := decide ((Packet.ptype p).toNat ≤ 8)

/-- `pad_ok` of VALIDATE (R83): kept as the spec writes it, and always true (R89; 90_conflicts.md C1). -/
def padOk (p : Packet) : Bool := decide ((Packet.pad p).toNat ≤ 16)

/-- VALIDATE's verdict under the checksum function `k` (R83). -/
def validUnder (k : Config.ChecksumKind) (p : Packet) : Bool := cksOk k p && typeOk p && padOk p

/-- `seal(m, s, d)`: a packet with the checksum XOR8 gives it (R88). A spec-level helper, no command. -/
def sealPacket (m : Byte) (s : BitVec 16) (d : List Byte) : Packet :=
  let body := [m, s.extractLsb' 0 8, s.extractLsb' 8 8] ++ d
  Packet.pack (body ++ [body.foldl (· ^^^ ·) 0])

namespace Queue

variable {C : Nat} {T : Type}

/-- `empty = (LENGTH == 0)` (R32). -/
def isEmpty (q : Queue C T) : Bool := decide (q.length.val = 0)

/-- `full = (LENGTH == C)` (R32). -/
def isFull (q : Queue C T) : Bool := decide (q.length.val = C)

end Queue

/-- The number of a status code on `rsp_status` (R72). -/
def Status.code : Status → BitVec 3
  | .ok => 0
  | .tooShort => 1
  | .validationFailure => 2
  | .queueFull => 3
  | .queueEmpty => 4
  | .illegalCommand => 5

end Sys2Proof.Machine
end

