-- ==== Sys2Proof/Machine/Codec.lean ====
section
/-! DEFINITION. The Packet Codec family (40_codec.md): DECODE and VALIDATE. Both are legal on both ports and write no
state (R79). -/

namespace Sys2Proof.Machine

/-- DECODE (R80). -/
def execDecode (len : BitVec 8) (data : BitVec 160) (s : State) : Host.Outcome State Fault Refusal :=
  match unpack len data with
  | none => .next (s.raise .tooShort)
  | some p => .next (s.respond .ok true none (some p))

/-- VALIDATE (R83). Which check failed is not reported. -/
def execValidate (p : Packet) (s : State) : Host.Outcome State Fault Refusal :=
  if validUnder Config.checksum p then .next (s.respond .ok true none none)
  else .next (s.raise .validationFailure)

end Sys2Proof.Machine
end

