-- ==== Sys2Proof/Machine/Fifo.lean ====
section
/-! DEFINITION. The Bounded Circular Queue family (41_queue.md): PUSH, POP, IS_EMPTY, IS_FULL, SIZE and the reserved
opcode. Port legality is checked before the command's own condition (R115). -/

namespace Sys2Proof.Machine

/-- PUSH (R97); on port K it is illegal (R108). The element is not inspected (R109). -/
def execPush (v : Packet) (s : State) : Host.Outcome State Fault Refusal :=
  if legalOn (.push v) s.serving then
    match s.queue.push v with
    | none => .next (s.raise .queueFull)
    | some q => .next ({ s with queue := q }.respond .ok true none none)
  else .next s.illegal

/-- POP (R99); on port P it is illegal (R108). -/
def execPop (s : State) : Host.Outcome State Fault Refusal :=
  if legalOn .pop s.serving then
    match s.queue.pop with
    | none => .next (s.raise .queueEmpty)
    | some (v, q) => .next ({ s with queue := q }.respond .ok true none (some (s.element v)))
  else .next s.illegal

/-- IS_EMPTY (R102). -/
def execIsEmpty (s : State) : Host.Outcome State Fault Refusal :=
  .next (s.respond .ok s.queue.isEmpty none none)

/-- IS_FULL (R104). -/
def execIsFull (s : State) : Host.Outcome State Fault Refusal :=
  .next (s.respond .ok s.queue.isFull none none)

/-- SIZE (R106). -/
def execSize (s : State) : Host.Outcome State Fault Refusal :=
  .next (s.respond .ok true (some (sizeField s.queue)) none)

/-- The reserved opcode: illegal on both ports (R108). -/
def execReserved (s : State) : Host.Outcome State Fault Refusal := .next s.illegal

end Sys2Proof.Machine
end

