-- ==== Sys2Proof/Machine/Dispatch.lean ====
section
/-! DEFINITION. One arm per command: the sequential step of R110, at the command's linearisation point. -/

namespace Sys2Proof.Machine

def exec (i : Instr) (s : State) : Host.Outcome State Fault Refusal :=
  match i with
  | .decode len data => Sys2Proof.Machine.execDecode len data s
  | .validate p => Sys2Proof.Machine.execValidate p s
  | .push v => Sys2Proof.Machine.execPush v s
  | .pop => Sys2Proof.Machine.execPop s
  | .isEmpty => Sys2Proof.Machine.execIsEmpty s
  | .isFull => Sys2Proof.Machine.execIsFull s
  | .size => Sys2Proof.Machine.execSize s
  | .reserved => Sys2Proof.Machine.execReserved s

end Sys2Proof.Machine
end

