-- ==== Sys2Proof/Machine/Ports.lean ====
section
/-! DEFINITION. The agents outside and the ports: arbitration (R124), the moves of the hosts and of the reset source
(R121 to R123, R133 to R135, R148), and what the next step of the machine is. -/

namespace Sys2Proof.Machine

/-- What the next step does: run a command at its linearisation point, or end with this outcome. -/
inductive Action where
  | run (i : Instr) (s : State)
  | settle (o : Host.Outcome State Fault Refusal)

namespace State

/-! ### Arbitration -/

/-- Which of two waiting commands goes first (R124): a free draw, but for a command that has lost more conflicts than
the bound, which then goes first (arbitration is fair). -/
def arbiter (s : State) : Port :=
  if Config.arbPatience < s.portK.losses then .K
  else if Config.arbPatience < s.portP.losses then .P
  else if Config.arbPFirst s.draws then .P
  else .K

/-- Port `p`'s command comes to its linearisation point: it passes whatever the other port has outstanding. -/
def serve (s : State) (p : Port) : State :=
  { (s.setPort p { s.port p with losses := 0 }).setPort p.other (s.port p.other).passedOver with serving := p }

/-- Port `p`'s command wins a conflict: the arbiter's draw is used up. -/
def serveFirst (s : State) (p : Port) : State := { s.serve p with draws := s.draws + 1 }

/-- The command the block linearises next, with the state in which it does; none when none is waiting. While reset is
asserted the block serves none (R135). -/
def nextCommand (s : State) : Option (Command × State) :=
  if s.resetAsserted then none
  else match s.portP.waiting, s.portK.waiting with
    | none, none => none
    | some c, none => some (c, s.serve .P)
    | none, some d => some (d, s.serve .K)
    | some c, some d =>
      match s.arbiter with
      | .P => some (c, s.serveFirst .P)
      | .K => some (d, s.serveFirst .K)

/-- The block presents port `p`'s response, if its command is linearised (R122). While reset is asserted it raises no
`rsp_valid` (R135). -/
def deliver (s : State) (p : Port) : State :=
  if s.resetAsserted then s else s.setPort p (s.port p).delivered

/-- With nothing to linearise and no agent moving, the block presents a response that is due, or stays as it is
(R121: it is passive). -/
def deliverAny (s : State) : State :=
  if s.portP.result.isSome then s.deliver .P else s.deliver .K

/-! ### The hosts and the reset source -/

/-- A host presents a command (R122). The block latches it; while reset is asserted it ignores it (R135). A second
command before the response breaks the host's duty (R148). -/
def present (s : State) (p : Port) (c : Command) : Host.Outcome State Fault Refusal :=
  if s.resetAsserted then .next s
  else match (s.port p).latch with
    | none => .next (s.setPort p { s.port p with latch := some c })
    | some _ => .refused (.secondCommand p)

/-- A host's signals while a command of its own is outstanding: they must be the ones it presented (R122, R148). With
none outstanding they say nothing. -/
def drive (s : State) (p : Port) (signals : Option Command) : Host.Outcome State Fault Refusal :=
  match (s.port p).latch with
  | none => .next s
  | some c => if signals = some c then .next s else .refused (.operandsChanged p)

/-- Whether field `f` of a response is UNSPEC (R70). -/
def unspecField (r : Response) : Field → Bool
  | .status => false
  | .flag => false
  | .size => match r.size with
    | .value _ => false
    | .unspec _ => true
  | .data => match r.data with
    | .value _ => false
    | .unspec _ => true

/-- A host reads a field of the response last presented to it; it must not read an UNSPEC one (R74, R148). -/
def readField (s : State) (p : Port) (f : Field) : Host.Outcome State Fault Refusal :=
  match (s.port p).responses with
  | [] => .refused (.noResponse p f)
  | r :: _ => if unspecField r f then .refused (.unspecRead p f) else .next s

/-- Reset is asserted (R133, R134): the queue is reset and both ports' commands are abandoned. -/
def assertReset (s : State) : State :=
  { s with
    queue := s.queue.reset
    portP := s.portP.abandoned
    portK := s.portK.abandoned
    resetAsserted := true }

/-- Reset is released: the ports accept commands again (R129, R137). -/
def releaseReset (s : State) : State := { s with resetAsserted := false }

/-! ### The next step -/

/-- Run the command that is to be linearised next, or go on as `idle` when none is waiting. -/
def runOr (s : State) (idle : State) : Action :=
  match s.nextCommand with
  | some (c, t) => .run (decode c) t
  | none => .settle (.next idle)

/-- One event of the schedule. -/
def event (s : State) : Event → Action
  | .present p c => .settle (s.present p c)
  | .drive p signals => .settle (s.drive p signals)
  | .read p f => .settle (s.readField p f)
  | .reset true => .settle (.next s.assertReset)
  | .reset false => .settle (.next s.releaseReset)
  | .powerLoss => .settle (.refused .powerLost)
  | .linearise => s.runOr s
  | .deliver p => .settle (.next (s.deliver p))

/-- What the next step does (R17): the next event of the schedule; with the schedule empty, the block linearises what is
outstanding and then presents the responses (R119: every command is answered). -/
def action (s : State) : Action :=
  match s.schedule with
  | [] => s.runOr s.deliverAny
  | e :: rest => { s with schedule := rest }.event e

/-! ### Placing a command -/

/-- The port on which a command has its own effect (R67): POP's is K; every other command but the reserved one has it on
P. -/
def homePort : Instr → Port
  | .pop => .K
  | _ => .P

/-- A port with no command waiting to be linearised. -/
def notWaiting (ps : PortState) : PortState :=
  match ps.result with
  | none => { ps with latch := none, losses := 0 }
  | some _ => ps

/-- The state whose next step runs command `c` (log entry 2): it is outstanding on its home port, no other command is
waiting, no other move comes first and reset is not asserted. -/
def placed (s : State) (c : Command) : State :=
  let p := homePort (decode c)
  { (s.setPort p { s.port p with latch := some c, result := none, losses := 0 }).setPort p.other (notWaiting (s.port p.other)) with
    resetAsserted := false
    schedule := [] }

end State

end Sys2Proof.Machine
end

