-- ==== Sys2Proof/Machine/Step.lean ====
section
/-! DEFINITION. One step of the machine (R17), and placing an instruction so that the next step runs it. -/

namespace Sys2Proof.Machine

/-- One step: a command at its linearisation point, one move of an agent outside, or a response presented. -/
def step (s : State) : Host.Outcome State Fault Refusal :=
  match s.action with
  | .run i t => exec i t
  | .settle o => o

/-- `s` with the command whose packed word is `w` outstanding, so that the next step linearises it (log entries 1 and 2). -/
def State.withFetchWord (s : State) (nbits w : Nat) : State := s.placed (Command.ofWord (w % 2 ^ nbits))

end Sys2Proof.Machine
end

