-- ==== Sys2Proof/Machine/HostPrograms.lean ====
section
/-! DEFINITION. The hosts' sequences over the block: one command issued and answered with nothing between (the
sequential step of R110), and the pseudo-commands INGEST and CONSUME (R76). The block has no opcode for them. -/

namespace Sys2Proof.Machine

/-- `step(s, port, op, len, data)` of R110: port `p`'s command linearised and answered; the response and the state
after. None where the command's meaning stops, which no command's does. -/
def transact (p : Port) (c : Command) (s : State) : Option (Response × State) :=
  match exec (decode c) { s with serving := p } with
  | .next t => (t.port p).result.map fun r => (r, t.setPort p (t.port p).delivered)
  | .fault _ => none
  | .refused _ => none

/-- Commands issued one after the other on port `p`, each answered before the next (R123); the state after. -/
def runOn (p : Port) : List Instr → State → Option State
  | [], s => some s
  | i :: rest, s =>
    match transact p (encode i) s with
    | none => none
    | some (_, t) => runOn p rest t

/-- How INGEST ends (R76). -/
inductive IngestEnd where
  | chunkDiscarded
  | packetInvalid
  | packetDropped
  | packetQueued
  deriving DecidableEq, Repr

/-- How CONSUME ends (R76). -/
inductive ConsumeEnd where
  | nothingToDo
  | packetInvalid
  | packetDelivered (p : Packet)
  deriving DecidableEq, Repr

/-- INGEST (R76): PUSH the decoded packet. -/
def ingestPush (p : Packet) (s : State) : Option (IngestEnd × State) :=
  match transact .P (encode (.push p)) s with
  | none => none
  | some (r, t) => some (if r.status = .queueFull then .packetDropped else .packetQueued, t)

/-- INGEST (R76), on port P: DECODE the chunk; VALIDATE it if the producer uses its gate; PUSH it. -/
def ingest (gate : Bool) (raw : List Byte) (idle : Packet) (s : State) : Option (IngestEnd × State) :=
  match transact .P (encode (.decode (chunkLen raw) (chunkLanes raw idle))) s with
  | none => none
  | some (r, t) =>
    match r.status, r.data with
    | .ok, .value p =>
      if gate then
        match transact .P (encode (.validate p)) t with
        | none => none
        | some (v, u) => if v.flag then ingestPush p u else some (.packetInvalid, u)
      else ingestPush p t
    | _, _ => some (.chunkDiscarded, t)

/-- CONSUME (R76), on port K: POP a packet; VALIDATE it if the consumer uses its gate; deliver it. -/
def consume (gate : Bool) (s : State) : Option (ConsumeEnd × State) :=
  match transact .K (encode .pop) s with
  | none => none
  | some (r, t) =>
    match r.status, r.data with
    | .ok, .value p =>
      if gate then
        match transact .K (encode (.validate p)) t with
        | none => none
        | some (v, u) => some (if v.flag then .packetDelivered p else .packetInvalid, u)
      else some (.packetDelivered p, t)
    | _, _ => some (.nothingToDo, t)

end Sys2Proof.Machine
end

