-- ==== Sys2Proof/Safety.lean ====
section
/-! DEFINITION. The words claims are stated in: what a response says without its UNSPEC fields, the abstract content of
the queue, the invariant of every step, what a command leaves unchanged, and the observation of a run. -/

namespace Sys2Proof.Machine

/-! ### What a host may know of a response -/

/-- The value a response field carries by the rules; none where it is UNSPEC (R70, R74). -/
def Driven.given {w : Nat} : Driven w → Option (BitVec w)
  | .value v => some v
  | .unspec _ => none

/-- A response as a host may read it: `size` and `data` are none where they are UNSPEC (R74). -/
structure Answer where
  status : Status
  flag   : Bool
  size   : Option (BitVec Config.lenW)
  data   : Option Packet
  deriving DecidableEq, Repr

def Response.answer (r : Response) : Answer :=
  { status := r.status, flag := r.flag, size := r.size.given, data := r.data.given }

/-- The answer to port `p`'s linearised command. -/
def State.answer (s : State) (p : Port) : Option Answer := (s.port p).result.map Response.answer

/-! ### The queue as a list -/

namespace Queue

variable {C : Nat} {T : Type}

/-- The abstract content `Q(s)`, the oldest element first (R27): the slots `(HEAD + i) mod C` for `i < LENGTH`. -/
def content (q : Queue C T) : List (Option T) := (List.range q.length.val).map fun i => q.memRead (q.slot i)

/-- R26 and R33: `TAIL = (HEAD + LENGTH) mod C`, and every slot of the occupied window was written. -/
structure Consistent (q : Queue C T) : Prop where
  tail    : q.tail.val = (q.head.val + q.length.val) % C
  written : ∀ i, i < q.length.val → (q.memRead (q.slot i)).isSome = true

/-- A queue with nothing in it and no slot written (R35), for any capacity `C >= 1` (R8). -/
def fresh (C : Nat) (T : Type) (hC : 0 < C) : Queue C T :=
  { head := ⟨0, hC⟩, tail := ⟨0, hC⟩, length := ⟨0, Nat.succ_pos _⟩, qstore := Vector.replicate C none }

/-- PUSH and POP, the two commands that write the queue, at any capacity and element type. -/
inductive Op (T : Type) where
  | push (v : T)
  | pop
  deriving DecidableEq, Repr

/-- What a sequence of PUSHes and POPs did. -/
structure Trace (C : Nat) (T : Type) where
  /-- The values of the successful PUSHes, in order. -/
  pushed : List T
  /-- What the successful POPs read, in order. -/
  popped : List (Option T)
  final  : Queue C T

/-- PUSHes and POPs in one total order (R47, R101); one that fails changes nothing. -/
def runOps : List (Op T) → Queue C T → Trace C T
  | [], q => { pushed := [], popped := [], final := q }
  | .push v :: rest, q =>
    match q.push v with
    | none => runOps rest q
    | some q' => { runOps rest q' with pushed := v :: (runOps rest q').pushed }
  | .pop :: rest, q =>
    match q.pop with
    | none => runOps rest q
    | some (v, q') => { runOps rest q' with popped := v :: (runOps rest q').popped }

/-- Whether a sequence of PUSHes and POPs meets no full and no empty queue. -/
def allSucceed : List (Op T) → Queue C T → Prop
  | [], _ => True
  | .push v :: rest, q => ∃ q', q.push v = some q' ∧ allSucceed rest q'
  | .pop :: rest, q => ∃ v q', q.pop = some (v, q') ∧ allSucceed rest q'

/-- Two queues that differ at most in slots outside the occupied window (R33). -/
def AgreesOnWindow (q r : Queue C T) : Prop :=
  q.head = r.head ∧ q.tail = r.tail ∧ q.length = r.length ∧
    ∀ i, i < q.length.val → q.memRead (q.slot i) = r.memRead (q.slot i)

end Queue

/-! ### The sequential meaning over a list -/

/-- What a command on port `p` does to the content Q, and its answer: the sequential rules over the list of R27, with
no index and no slot (R27, R47, R101). -/
def listStep (p : Port) (i : Instr) (Q : List Packet) : List Packet × Answer :=
  match i with
  | .decode len data =>
    (Q, if len.toNat < 20 then ⟨.tooShort, false, none, none⟩ else ⟨.ok, true, none, some data⟩)
  | .validate x =>
    (Q, if validUnder Config.checksum x then ⟨.ok, true, none, none⟩ else ⟨.validationFailure, false, none, none⟩)
  | .push v =>
    match p with
    | .P => if Q.length = Config.capacity then (Q, ⟨.queueFull, false, none, none⟩)
      else (Q ++ [v], ⟨.ok, true, none, none⟩)
    | .K => (Q, ⟨.illegalCommand, false, none, none⟩)
  | .pop =>
    match p, Q with
    | .K, [] => ([], ⟨.queueEmpty, false, none, none⟩)
    | .K, v :: rest => (rest, ⟨.ok, true, none, some v⟩)
    | .P, Q => (Q, ⟨.illegalCommand, false, none, none⟩)
  | .isEmpty => (Q, ⟨.ok, Q.isEmpty, none, none⟩)
  | .isFull => (Q, ⟨.ok, decide (Q.length = Config.capacity), none, none⟩)
  | .size => (Q, ⟨.ok, true, some (BitVec.ofNat Config.lenW Q.length), none⟩)
  | .reserved => (Q, ⟨.illegalCommand, false, none, none⟩)

/-! ### The invariant -/

/-- What holds of a port between steps: a response is due only for a latched command, and a port with nothing outstanding
was passed by no command. -/
structure PortState.Consistent (ps : PortState) : Prop where
  due  : ps.result.isSome = true → ps.latch.isSome = true
  calm : ps.latch = none → ps.losses = 0

/-- The invariant of every step: the queue's (R26, R33), each port's, nothing outstanding while reset is asserted (R135),
and the bounded wait of R124: never both ports were passed, and neither was passed more often than once above the bound. -/
structure State.Inv (s : State) : Prop where
  queue    : s.queue.Consistent
  portP    : s.portP.Consistent
  portK    : s.portK.Consistent
  quiet    : s.resetAsserted = true → s.portP.latch = none ∧ s.portK.latch = none
  oneLoser : s.portP.losses = 0 ∨ s.portK.losses = 0
  fairP    : s.portP.losses ≤ Config.arbPatience + 1
  fairK    : s.portK.losses ≤ Config.arbPatience + 1

/-! ### Frames -/

/-- From `s` to `t` only the queue and the served port's answer may have changed, and one draw was made. -/
structure OnlyAnswers (s t : State) : Prop where
  serving   : t.serving = s.serving
  other     : t.port s.serving.other = s.port s.serving.other
  latch     : (t.port s.serving).latch = (s.port s.serving).latch
  losses    : (t.port s.serving).losses = (s.port s.serving).losses
  responses : (t.port s.serving).responses = (s.port s.serving).responses
  reset     : t.resetAsserted = s.resetAsserted
  schedule  : t.schedule = s.schedule
  draws     : t.draws = s.draws + 1

/-! ### Runs -/

/-- A port with nothing outstanding. -/
abbrev PortState.Free (ps : PortState) : Prop := ps.latch = none ∧ ps.result = none ∧ ps.losses = 0

/-- A run is over (R147): no move is still to come and no command is outstanding. -/
abbrev State.Ended (s : State) : Prop := s.schedule = [] ∧ s.portP.latch = none ∧ s.portK.latch = none

/-- What a run shows (R147): the responses on each port in order, without their UNSPEC fields, the content Q and LENGTH. -/
structure Observation where
  onP     : List Answer
  onK     : List Answer
  content : List (Option Packet)
  length  : Nat
  deriving DecidableEq, Repr

def State.observation (s : State) : Observation where
  onP := (s.portP.responses.map Response.answer).reverse
  onK := (s.portK.responses.map Response.answer).reverse
  content := s.queue.content
  length := s.queue.length.val

/-- Two states that differ at most in stale slots (R33). -/
structure SameButStale (s t : State) : Prop where
  queue    : s.queue.AgreesOnWindow t.queue
  rest     : { s with queue := t.queue } = t

end Sys2Proof.Machine
end

