-- ==== Sys2Proof/Certificates/Slice0/Obligations.lean ====
section
/-! DEFINITION. The statements for the provers. Each docstring names the rule or the sentence of spec/ it formalises.
`State.answer` and `Answer` say what a response carries without its UNSPEC fields, so a statement holds for every value
of a free draw; `OnlyAnswers` is the frame of a command. -/

open Sys2Proof Sys2Proof.Machine

/-! ### Encoding -/

/-- R66: the opcode map, with the format each row has. -/
def Obligations.OpcodeMapSelectsOneRow : Prop :=
  ∀ (len : BitVec 8) (data : BitVec 160),
    decode ⟨0b000#3, len, data⟩ = .decode len data ∧ decode ⟨0b001#3, len, data⟩ = .validate data ∧
    decode ⟨0b010#3, len, data⟩ = .push data ∧ decode ⟨0b011#3, len, data⟩ = .pop ∧
    decode ⟨0b100#3, len, data⟩ = .isEmpty ∧ decode ⟨0b101#3, len, data⟩ = .isFull ∧
    decode ⟨0b110#3, len, data⟩ = .size ∧ decode ⟨0b111#3, len, data⟩ = .reserved ∧
    [Instr.decode len data, .validate data, .push data, .pop, .isEmpty, .isFull, .size, .reserved].map Instr.mnemonic =
      ["DECODE", "VALIDATE", "PUSH", "POP", "IS_EMPTY", "IS_FULL", "SIZE", "RESERVED"] ∧
    [Instr.decode len data, .validate data, .push data, .pop, .isEmpty, .isFull, .size, .reserved].map Instr.format =
      [.cmdRaw, .cmdPkt, .cmdPkt, .cmdNone, .cmdNone, .cmdNone, .cmdNone, .cmdNone]

/-- R65: the format of each opcode; a command is fixed by its opcode and the operand signals its format lists, and the
block ignores the others. -/
def Obligations.UnlistedSignalsAreIgnored : Prop :=
  ∀ c d : Command, c.op = d.op →
    (decode c).format = (if c.op = 0b000#3 then .cmdRaw else if c.op = 0b001#3 ∨ c.op = 0b010#3 then .cmdPkt else .cmdNone) ∧
    match (decode c).format with
    | .cmdRaw => c.len = d.len → c.data = d.data → decode c = decode d
    | .cmdPkt => c.data = d.data → decode c = decode d
    | .cmdNone => decode c = decode d

/-- Decoding an encoded command gives it back, with every operand at every value (R66, R68: every value of `cmd_len`
and `cmd_data` is legal), as signals and as one packed number (the packing is the model's choice, log entry 1). -/
def Obligations.DecodeOfEncodeGivesCommand : Prop :=
  ∀ i : Instr, decode (encode i) = i ∧ decodeTableWord 171 (encode i).toWord = some i

/-- The packing of a command's signals into one number, the model's choice (log entry 1), drops no bit. -/
def Obligations.PackedCommandKeepsEverySignal : Prop :=
  ∀ c : Command, Command.ofWord c.toWord = c ∧ c.toWord < 2 ^ 171 ∧ decodeTableWord 171 c.toWord = some (decode c)

/-- 30_encoding.md section 1, "`pack(bytes(p)) = p`, and `bytes(pack(w)) = w`". -/
def Obligations.WireImageAndPacketAgree : Prop :=
  (∀ p : Packet, Packet.pack (Packet.bytes p) = p) ∧
  (∀ w : List Byte, w.length = 20 → Packet.bytes (Packet.pack w) = w)

/-- R53: a packet is 20 bytes on the wire with each field at its offset; and where each field lies in the 160-bit value
(30_encoding.md section 1). -/
def Obligations.PacketFieldsLieAtTheirBytes : Prop :=
  ∀ p : Packet, (Packet.bytes p).length = 20 ∧
    Packet.metadata p = Packet.byte p 0 ∧
    Packet.ptype p = (Packet.byte p 0).extractLsb' 4 4 ∧ Packet.pad p = (Packet.byte p 0).extractLsb' 0 4 ∧
    Packet.seq p = Packet.byte p 2 ++ Packet.byte p 1 ∧
    (∀ j, j < 16 → Packet.data p j = Packet.byte p (3 + j) ∧ (Packet.payload p).extractLsb' (8 * j) 8 = Packet.data p j) ∧
    Packet.cks p = Packet.byte p 19 ∧
    p = Packet.cks p ++ Packet.payload p ++ Packet.seq p ++ Packet.ptype p ++ Packet.pad p

/-- R57: the nine known types; a packet of another type decodes with status OK and is refused by VALIDATE. -/
def Obligations.OnlyNinePacketTypesAreKnown : Prop :=
  [0, 1, 2, 3, 4, 5, 6, 7, 8].map packetTypeOf =
    [some .hello, some .ack, some .p1Imu, some .p1IrRecv, some .p1IrTrans, some .p2Imu, some .p2IrRecv,
      some .p2IrTrans, some .gameStat] ∧
  (∀ t : BitVec 4, 9 ≤ t.toNat → packetTypeOf t = none) ∧
  ∀ (p : Packet) (s : State), packetTypeOf (Packet.ptype p) = none →
    (∃ t, exec (.decode 20 p) s = .next t ∧ t.answer s.serving = some ⟨.ok, true, none, some p⟩) ∧
    (∃ t, exec (.validate p) s = .next t ∧ t.answer s.serving = some ⟨.validationFailure, false, none, none⟩)

/-- A command line of R75 is assembled to the command that carries its bytes: a packet's wire image to that packet, a
chunk of `len` bytes to lanes whose byte `i` is the chunk's for `i < len`, whether or not the line writes bytes beyond the
20 lanes (log entry 20; lanes the chunk does not reach: log entry 15); a line without operands to its command on its
port; an ill-formed line to nothing. -/
def Obligations.CommandLineCarriesItsBytes : Prop :=
  (∀ (idle p : Packet) (port : Port),
    assemble idle (.validate port (Packet.bytes p)) = some (port, encode (.validate p)) ∧
    assemble idle (.push port (Packet.bytes p)) = some (port, encode (.push p))) ∧
  (∀ (idle : Packet) (port : Port) (len : Nat) (bytes : List Byte), len < 256 →
    bytes.length = min len 20 ∨ bytes.length = len →
    ∃ data, assemble idle (.decode port len bytes) = some (port, encode (.decode (BitVec.ofNat 8 len) data)) ∧
      ∀ i, i < 20 → Packet.byte data i = (bytes[i]?).getD (Packet.byte idle i)) ∧
  (∀ (idle : Packet) (port : Port),
    assemble idle (.pop port) = some (port, encode .pop) ∧
    assemble idle (.isEmpty port) = some (port, encode .isEmpty) ∧
    assemble idle (.isFull port) = some (port, encode .isFull) ∧
    assemble idle (.size port) = some (port, encode .size) ∧
    assemble idle (.reserved port) = some (port, encode .reserved)) ∧
  (∀ (idle : Packet) (l : CommandLine), l.wf = false → assemble idle l = none)

/-- 00_scope.md section 3, `IDX_W = max(1, ceil(log2 C))` and `LEN_W = ceil(log2 (C+1))`: the widths hold every index
and every count, for every capacity; for this hardware both are 5, and no index is 30 or 31. -/
def Obligations.RegisterWidthsHoldEveryValue : Prop :=
  (∀ C : Nat, 0 < C → C ≤ 2 ^ Config.indexWidth C ∧ C < 2 ^ Config.lengthWidth C) ∧
  Config.indexWidth 30 = Config.idxW ∧ Config.lengthWidth 30 = Config.lenW ∧
  ∀ i : Fin 30, (indexBits i).toNat = i.val ∧ indexBits i ≠ 30 ∧ indexBits i ≠ 31

/-! ### The Packet Codec -/

/-- R80: DECODE, with its frame. -/
def Obligations.DecodeUnpacksOrAnswersTooShort : Prop :=
  ∀ (len : BitVec 8) (data : BitVec 160) (s : State),
    decode ⟨0b000#3, len, data⟩ = .decode len data ∧
    (20 ≤ len.toNat → ∃ t, exec (.decode len data) s = .next t ∧ OnlyAnswers s t ∧ t.queue = s.queue ∧
      t.answer s.serving = some ⟨.ok, true, none, some data⟩) ∧
    (len.toNat < 20 → ∃ t, exec (.decode len data) s = .next t ∧ OnlyAnswers s t ∧ t.queue = s.queue ∧
      t.answer s.serving = some ⟨.tooShort, false, none, none⟩) ∧
    ∀ raw idle, ∃ t, exec (.decode (chunkLen raw) (chunkLanes raw idle)) s = .next t ∧
      t.answer s.serving = some (if raw.length < 20 then ⟨.tooShort, false, none, none⟩
        else ⟨.ok, true, none, some (Packet.pack (raw.take 20))⟩)

/-- R81: DECODE uses no lane when the chunk is short, and no byte beyond the first 20. -/
def Obligations.DecodeUsesNoByteBeyondTwenty : Prop :=
  (∀ (len : BitVec 8) (d e : BitVec 160) (s : State), len.toNat < 20 →
    exec (.decode len d) s = exec (.decode len e) s) ∧
  (∀ (len len' : BitVec 8) (d : BitVec 160) (s : State), 20 ≤ len.toNat → 20 ≤ len'.toNat →
    exec (.decode len d) s = exec (.decode len' d) s) ∧
  (∀ (raw raw' : List Byte) (idle idle' : Packet) (s : State), 20 ≤ raw.length → raw' = raw.take 20 →
    exec (.decode (chunkLen raw) (chunkLanes raw idle)) s = exec (.decode (chunkLen raw') (chunkLanes raw' idle')) s)

/-- 40_codec.md section 2, "The packet `p` that DECODE returns for a raw chunk `raw` with at least 20 bytes satisfies". -/
def Obligations.DecodedFieldsComeFromTheChunk : Prop :=
  ∀ (raw : List Byte) (idle : Packet) (s : State) (h : 20 ≤ raw.length),
    ∃ t p, exec (.decode (chunkLen raw) (chunkLanes raw idle)) s = .next t ∧
      t.answer s.serving = some ⟨.ok, true, none, some p⟩ ∧
      Packet.metadata p = raw[0] ∧ Packet.ptype p = raw[0].extractLsb' 4 4 ∧ Packet.pad p = raw[0].extractLsb' 0 4 ∧
      (Packet.seq p).toNat = raw[1].toNat + 256 * raw[2].toNat ∧
      (∀ j (hj : j < 16), Packet.data p j = raw[3 + j]) ∧ Packet.cks p = raw[19]

/-- 40_codec.md section 4, "The round trip holds for every packet value". -/
def Obligations.DecodeOfWireImageGivesPacket : Prop :=
  ∀ (p idle : Packet) (s : State),
    ∃ t, exec (.decode (chunkLen (Packet.bytes p)) (chunkLanes (Packet.bytes p) idle)) s = .next t ∧
      t.answer s.serving = some ⟨.ok, true, none, some p⟩

/-- R84: XOR8, the checksum function of this hardware, and SUM8, the alternative it names. -/
def Obligations.ChecksumIsXorOfFirstNineteenBytes : Prop :=
  ∀ p : Packet,
    checksumOf Config.checksum p =
      Packet.byte p 0 ^^^ Packet.byte p 1 ^^^ Packet.byte p 2 ^^^ Packet.byte p 3 ^^^ Packet.byte p 4 ^^^
      Packet.byte p 5 ^^^ Packet.byte p 6 ^^^ Packet.byte p 7 ^^^ Packet.byte p 8 ^^^ Packet.byte p 9 ^^^
      Packet.byte p 10 ^^^ Packet.byte p 11 ^^^ Packet.byte p 12 ^^^ Packet.byte p 13 ^^^ Packet.byte p 14 ^^^
      Packet.byte p 15 ^^^ Packet.byte p 16 ^^^ Packet.byte p 17 ^^^ Packet.byte p 18 ∧
    (checksumOf .sum8 p).toNat = ((List.range 19).map fun i => (Packet.byte p i).toNat).sum % 256

/-- R83: VALIDATE, with its frame. The padding check is written as the rule writes it. -/
def Obligations.ValidateChecksChecksumAndType : Prop :=
  ∀ (p : Packet) (s : State),
    (∀ len, decode ⟨0b001#3, len, p⟩ = .validate p) ∧
    (Packet.cks p = xor8 p ∧ (Packet.ptype p).toNat ≤ 8 ∧ (Packet.pad p).toNat ≤ 16 →
      ∃ t, exec (.validate p) s = .next t ∧ OnlyAnswers s t ∧ t.queue = s.queue ∧
        t.answer s.serving = some ⟨.ok, true, none, none⟩) ∧
    (¬ (Packet.cks p = xor8 p ∧ (Packet.ptype p).toNat ≤ 8 ∧ (Packet.pad p).toNat ≤ 16) →
      ∃ t, exec (.validate p) s = .next t ∧ OnlyAnswers s t ∧ t.queue = s.queue ∧
        t.answer s.serving = some ⟨.validationFailure, false, none, none⟩)

/-- 40_codec.md section 5, "VALIDATE's verdict is therefore `cks(p) == XOR8(p) and ptype(p) <= 8`", and section 3, "A
packet passes the checksum check iff the exclusive-or of all 20 of its bytes is 0". -/
def Obligations.VerdictIsXorOfAllBytesAndType : Prop :=
  ∀ p : Packet, validUnder Config.checksum p = true ↔
    (Packet.bytes p).foldl (· ^^^ ·) 0 = 0 ∧ (Packet.ptype p).toNat ≤ 8

/-- 40_codec.md section 3, "A change of any one of its bytes 0–19 to any other value makes the check fail". -/
def Obligations.OneChangedByteFailsChecksum : Prop :=
  ∀ (p q : Packet) (k : Nat) (s : State), k < 20 → cksOk .xor8 p = true → Packet.byte q k ≠ Packet.byte p k →
    (∀ i, i < 20 → i ≠ k → Packet.byte q i = Packet.byte p i) →
    ∃ t, exec (.validate q) s = .next t ∧ t.answer s.serving = some ⟨.validationFailure, false, none, none⟩

/-- 40_codec.md section 4, "VALIDATE accepts `seal(m,s,d)` iff `m[7:4] <= 8`". -/
def Obligations.SealedPacketIsValidIffTypeIsKnown : Prop :=
  ∀ (m : Byte) (n : BitVec 16) (d : List Byte) (s : State), d.length = 16 →
    Packet.cks (sealPacket m n d) = xor8 (sealPacket m n d) ∧
    ∃ t a, exec (.validate (sealPacket m n d)) s = .next t ∧ t.answer s.serving = some a ∧
      (a.flag = true ↔ (m.extractLsb' 4 4).toNat ≤ 8)

/-- 10_state.md section 1, "DECODE and VALIDATE read only their operands and write no register and no storage": their
answers do not depend on the state (40_codec.md section 5, "their response is the same whatever the ARB order puts them
between"; 70_reset_and_hazards.md section 2, "before and after any reset"). -/
def Obligations.CodecAnswerDependsOnOperandsAlone : Prop :=
  ∀ (i : Instr) (s u : State), (∃ len data, i = .decode len data) ∨ (∃ p, i = .validate p) →
    ∃ t v, exec i s = .next t ∧ exec i u = .next v ∧ t.answer s.serving = v.answer u.serving ∧
      t.queue = s.queue ∧ v.queue = u.queue

/-! ### The Bounded Circular Queue -/

/-- R96: an index advances forward by one slot modulo C, for every capacity; and no command moves HEAD or TAIL in any
other way. -/
def Obligations.IndexAdvancesForwardModuloCapacity : Prop :=
  (∀ (C : Nat) (i : Fin C), (i.val + 1 < C → (Queue.next i).val = i.val + 1) ∧ (i.val + 1 = C → (Queue.next i).val = 0)) ∧
  ∀ (i : Instr) (s : State), ∃ t, exec i s = .next t ∧
    (t.queue.head = s.queue.head ∨ t.queue.head = Queue.next s.queue.head) ∧
    (t.queue.tail = s.queue.tail ∨ t.queue.tail = Queue.next s.queue.tail)

/-- R97: PUSH on port P, with its frame: only slot TAIL, TAIL and LENGTH change. -/
def Obligations.PushAppendsUnlessFull : Prop :=
  ∀ (v : Packet) (s : State), s.serving = .P →
    (∀ len, decode ⟨0b010#3, len, v⟩ = .push v) ∧
    (s.queue.length.val ≠ 30 → ∃ t, exec (.push v) s = .next t ∧ OnlyAnswers s t ∧
      t.queue.memRead s.queue.tail = some v ∧
      (∀ j, j ≠ s.queue.tail → t.queue.memRead j = s.queue.memRead j) ∧
      t.queue.tail.val = (s.queue.tail.val + 1) % 30 ∧ t.queue.length.val = s.queue.length.val + 1 ∧
      t.queue.head = s.queue.head ∧ t.answer .P = some ⟨.ok, true, none, none⟩) ∧
    (s.queue.length.val = 30 → ∃ t, exec (.push v) s = .next t ∧ OnlyAnswers s t ∧ t.queue = s.queue ∧
      t.answer .P = some ⟨.queueFull, false, none, none⟩)

/-- R99: POP on port K, with its frame: only HEAD and LENGTH change. The answer carries the element of slot HEAD. (A slot
that was never written, which no run from reset pops, R33, gives some value: log entry 4.) -/
def Obligations.PopReturnsOldestUnlessEmpty : Prop :=
  ∀ (s : State), s.serving = .K →
    (∀ len data, decode ⟨0b011#3, len, data⟩ = .pop) ∧
    (s.queue.length.val ≠ 0 → ∃ t x, exec .pop s = .next t ∧ OnlyAnswers s t ∧
      (∀ v, s.queue.memRead s.queue.head = some v → x = v) ∧
      (∀ j, t.queue.memRead j = s.queue.memRead j) ∧
      t.queue.head.val = (s.queue.head.val + 1) % 30 ∧ t.queue.length.val = s.queue.length.val - 1 ∧
      t.queue.tail = s.queue.tail ∧ t.answer .K = some ⟨.ok, true, none, some x⟩) ∧
    (s.queue.length.val = 0 → ∃ t, exec .pop s = .next t ∧ OnlyAnswers s t ∧ t.queue = s.queue ∧
      t.answer .K = some ⟨.queueEmpty, false, none, none⟩)

/-- R102: IS_EMPTY, with its frame, on both ports. -/
def Obligations.IsEmptyAnswersWhetherLengthIsZero : Prop :=
  ∀ s : State, (∀ len data, decode ⟨0b100#3, len, data⟩ = .isEmpty) ∧
    ∃ t f, exec .isEmpty s = .next t ∧ OnlyAnswers s t ∧ t.queue = s.queue ∧
      t.answer s.serving = some ⟨.ok, f, none, none⟩ ∧ (f = true ↔ s.queue.length.val = 0)

/-- R104: IS_FULL, with its frame, on both ports. -/
def Obligations.IsFullAnswersWhetherLengthIsCapacity : Prop :=
  ∀ s : State, (∀ len data, decode ⟨0b101#3, len, data⟩ = .isFull) ∧
    ∃ t f, exec .isFull s = .next t ∧ OnlyAnswers s t ∧ t.queue = s.queue ∧
      t.answer s.serving = some ⟨.ok, f, none, none⟩ ∧ (f = true ↔ s.queue.length.val = 30)

/-- R106: SIZE, with its frame, on both ports: LENGTH fits the 5 bits of `rsp_size`, and 31 is never returned. -/
def Obligations.SizeAnswersLength : Prop :=
  ∀ s : State, (∀ len data, decode ⟨0b110#3, len, data⟩ = .size) ∧
    ∃ t n, exec .size s = .next t ∧ OnlyAnswers s t ∧ t.queue = s.queue ∧
      t.answer s.serving = some ⟨.ok, true, some n, none⟩ ∧ n.toNat = s.queue.length.val ∧ n.toNat ≤ 30

/-- R108: the reserved opcode on either port, a PUSH on K and a POP on P complete with ILLEGAL_COMMAND and write nothing,
whatever the state. -/
def Obligations.IllegalCommandsChangeNothing : Prop :=
  ∀ (i : Instr) (s : State),
    i = .reserved ∨ (∃ v, i = .push v ∧ s.serving = .K) ∨ (i = .pop ∧ s.serving = .P) →
    ∃ t, exec i s = .next t ∧ OnlyAnswers s t ∧ t.queue = s.queue ∧
      t.answer s.serving = some ⟨.illegalCommand, false, none, none⟩

/-- R71: for IS_EMPTY and IS_FULL the flag is the predicate; for every other command it is set exactly when the status is
OK. -/
def Obligations.FlagIsTheCommandsBooleanResult : Prop :=
  ∀ (i : Instr) (s : State), ∃ t a, exec i s = .next t ∧ t.answer s.serving = some a ∧
    (i = .isEmpty → (a.flag = true ↔ s.queue.length.val = 0)) ∧
    (i = .isFull → (a.flag = true ↔ s.queue.length.val = 30)) ∧
    (i ≠ .isEmpty → i ≠ .isFull → (a.flag = true ↔ a.status = .ok))

/-- R72, R114: the number of each status code, the cause of each, and that 6 and 7 are never driven. A failure returns
nothing beyond its code and records nothing in the state. -/
def Obligations.EachStatusHasItsCodeAndCause : Prop :=
  [Status.ok, .tooShort, .validationFailure, .queueFull, .queueEmpty, .illegalCommand].map Status.code =
    [0, 1, 2, 3, 4, 5] ∧
  ∀ (i : Instr) (s : State), ∃ t a, exec i s = .next t ∧ t.answer s.serving = some a ∧
    (a.status = .tooShort ↔ ∃ len data, i = .decode len data ∧ len.toNat < 20) ∧
    (a.status = .validationFailure ↔ ∃ p, i = .validate p ∧ (Packet.cks p ≠ xor8 p ∨ 8 < (Packet.ptype p).toNat)) ∧
    (a.status = .queueFull ↔ ∃ v, i = .push v ∧ s.serving = .P ∧ s.queue.length.val = 30) ∧
    (a.status = .queueEmpty ↔ i = .pop ∧ s.serving = .K ∧ s.queue.length.val = 0) ∧
    (a.status = .illegalCommand ↔ i = .reserved ∨ (∃ v, i = .push v ∧ s.serving = .K) ∨ (i = .pop ∧ s.serving = .P)) ∧
    a.status.code.toNat < 6 ∧
    (a.status ≠ .ok → a = ⟨a.status, false, none, none⟩ ∧ OnlyAnswers s t ∧ t.queue = s.queue)

/-- 10_state.md section 2 (the write columns of the access table): HEAD is written by a successful POP alone, TAIL and
QSTORE by a successful PUSH alone, LENGTH by either; no other command writes the queue. -/
def Obligations.OnlyPushAndPopWriteTheQueue : Prop :=
  ∀ (i : Instr) (s : State), ∃ t, exec i s = .next t ∧
    (¬ (i = .pop ∧ s.serving = .K ∧ s.queue.length.val ≠ 0) → t.queue.head = s.queue.head) ∧
    (¬ (∃ v, i = .push v ∧ s.serving = .P ∧ s.queue.length.val ≠ 30) →
      t.queue.tail = s.queue.tail ∧ t.queue.qstore = s.queue.qstore) ∧
    (¬ (i = .pop ∧ s.serving = .K ∧ s.queue.length.val ≠ 0) →
      ¬ (∃ v, i = .push v ∧ s.serving = .P ∧ s.queue.length.val ≠ 30) → t.queue.length = s.queue.length)

/-- 41_queue.md section 4, "In any one state, IS_EMPTY answers 1 iff SIZE answers 0, and IS_FULL answers 1 iff SIZE
answers C", and "No reachable state makes both answer 1". -/
def Obligations.QueriesAgreeInOneState : Prop :=
  ∀ s : State, ∃ t u v e f n, exec .isEmpty s = .next t ∧ exec .isFull s = .next u ∧ exec .size s = .next v ∧
    t.answer s.serving = some ⟨.ok, e, none, none⟩ ∧ u.answer s.serving = some ⟨.ok, f, none, none⟩ ∧
    v.answer s.serving = some ⟨.ok, true, some n, none⟩ ∧
    (e = true ↔ n.toNat = 0) ∧ (f = true ↔ n.toNat = 30) ∧ ¬ (e = true ∧ f = true)

/-- 41_queue.md section 2, "After C successful PUSHes from the reset state with no POP between them, IS_FULL answers 1.
The next PUSH answers QUEUE_FULL and leaves SIZE at C", for every capacity and element type. -/
def Obligations.CapacityPushesFillTheQueue : Prop :=
  ∀ (C : Nat) (T : Type) (hC : 0 < C) (vs : List T) (v : T), vs.length = C →
    Queue.allSucceed (vs.map .push) (Queue.fresh C T hC) ∧
    (Queue.runOps (vs.map .push) (Queue.fresh C T hC)).final.isFull = true ∧
    (Queue.runOps (vs.map .push) (Queue.fresh C T hC)).final.push v = none ∧
    (Queue.runOps (vs.map .push ++ [.push v]) (Queue.fresh C T hC)).final.length.val = C

/-- 41_queue.md section 3, the FIFO law: from a queue that meets the invariant, under any sequence of PUSH and POP, the
values popped and then the content left are the old content followed by the values pushed. -/
def Obligations.PopOrderIsPushOrder : Prop :=
  ∀ (C : Nat) (T : Type) (q : Queue C T) (ops : List (Queue.Op T)), q.Consistent →
    (Queue.runOps ops q).final.Consistent ∧
    (Queue.runOps ops q).popped ++ (Queue.runOps ops q).final.content =
      q.content ++ (Queue.runOps ops q).pushed.map some

/-- 41_queue.md section 6, the wrap-around law: from a fresh queue, when no command meets a full or an empty queue, the
final SIZE is the pushes less the pops and the popped values are the first pushed ones in order. -/
def Obligations.WrapAroundKeepsCountAndOrder : Prop :=
  ∀ (C : Nat) (T : Type) (hC : 0 < C) (ops : List (Queue.Op T)) (vs : List T) (k : Nat),
    Queue.allSucceed ops (Queue.fresh C T hC) →
    vs = ops.filterMap (fun o => match o with | .push v => some v | .pop => none) →
    k = ops.countP (fun o => match o with | .push _ => false | .pop => true) →
    (Queue.runOps ops (Queue.fresh C T hC)).final.length.val + k = vs.length ∧
    (Queue.runOps ops (Queue.fresh C T hC)).popped = (vs.take k).map some

/-- 41_queue.md section 6, "In any interleaving at all, SIZE equals successful pushes minus successful pops". -/
def Obligations.SizeCountsSuccessfulCommands : Prop :=
  ∀ (C : Nat) (T : Type) (q : Queue C T) (ops : List (Queue.Op T)),
    (Queue.runOps ops q).final.length.val + (Queue.runOps ops q).popped.length =
      q.length.val + (Queue.runOps ops q).pushed.length

/-- 41_queue.md section 4, the queue of capacity 1. -/
def Obligations.CapacityOneQueueAlternates : Prop :=
  ∀ (T : Type) (q : Queue 1 T) (v w : T),
    q.head.val = 0 ∧ q.tail.val = 0 ∧ q.isEmpty = !q.isFull ∧
    (q.length.val = 0 → ∃ q', q.push v = some q' ∧ q'.isFull = true ∧ q'.push w = none ∧
      ∃ q'', q'.pop = some (some v, q'') ∧ q''.isEmpty = true)

/-- The headline refinement: on a queue that meets the invariant, every command does to the abstract content Q (R27), and
answers, exactly what the sequential rules over a list give, on either port. -/
def Obligations.CircularQueueRefinesList : Prop :=
  ∀ (i : Instr) (s : State) (Q : List Packet), s.queue.Consistent → s.queue.content = Q.map some →
    ∃ t, exec i s = .next t ∧ OnlyAnswers s t ∧ t.queue.Consistent ∧
      t.queue.content = (listStep s.serving i Q).1.map some ∧
      t.answer s.serving = some (listStep s.serving i Q).2

/-! ### The machine -/

/-- R35: the reset values the spec gives; after reset IS_EMPTY answers 1 on both ports. (The slots, which the spec leaves
unspecified, and the model's own fields are the model's choice: log entries 3 and 4.) -/
def Obligations.ResetLeavesAnEmptyQueue : Prop :=
  State.reset.queue.head.val = 0 ∧ State.reset.queue.tail.val = 0 ∧ State.reset.queue.length.val = 0 ∧
  State.reset.portP.latch = none ∧ State.reset.portK.latch = none ∧ State.reset.queue.content = [] ∧
  ∀ p, ∃ t, exec .isEmpty { State.reset with serving := p } = .next t ∧ t.answer p = some ⟨.ok, true, none, none⟩

/-- 10_state.md section 4 (HEAD, TAIL and LENGTH are 0 at reset, and no command is pending on a port): State.reset meets
the invariant. That no response is due and no command was passed at reset is the model's choice (log entry 3), and so is the
form of the port and fairness clauses (log entries 5 and 7). -/
def Obligations.InvariantHoldsAtReset : Prop := State.reset.Inv

/-- 10_state.md section 1 (`TAIL = (HEAD + LENGTH) mod C`), section 3 (each slot of the window was written),
70_reset_and_hazards.md section 1 (nothing outstanding while reset is asserted) and 60_exceptions.md section 4 (bounded
arbitration): every step keeps the invariant, from every state that meets it. The port and fairness clauses rest on log
entries 5 and 7. -/
def Obligations.StepKeepsInvariant : Prop :=
  ∀ s t : State, s.Inv → step s = .next t → t.Inv

/-- A step runs the decoded command: when reset is not asserted, a command waits on port `p`, alone or as the arbiter's
choice of two, and the next move is the block's, the step is that command's meaning with `p` served. That the block moves
when the schedule is empty is the model's choice (log entry 13), and so is the move itself (log entry 5). -/
def Obligations.StepRunsTheWaitingCommand : Prop :=
  ∀ (s : State) (p : Port) (c : Command), s.resetAsserted = false → (s.port p).waiting = some c →
    ((s.port p.other).waiting = none →
      (s.schedule = [] → step s = exec (decode c) (s.serve p)) ∧
      (∀ rest, s.schedule = .linearise :: rest → step s = exec (decode c) ({ s with schedule := rest }.serve p))) ∧
    ((s.port p.other).waiting.isSome = true → s.arbiter = p →
      (s.schedule = [] → step s = exec (decode c) (s.serveFirst p)) ∧
      (∀ rest, s.schedule = .linearise :: rest → step s = exec (decode c) ({ s with schedule := rest }.serveFirst p)))

/-- A response is presented once, and the port is then free: the response joins those of its port, and nothing else changes
(60_exceptions.md section 4; the move is log entry 5). -/
def Obligations.DeliverPresentsOneResponse : Prop :=
  ∀ (s : State) (p : Port) (r : Response) (rest : List Event), s.resetAsserted = false →
    s.schedule = .deliver p :: rest → (s.port p).result = some r →
    ∃ t, step s = .next t ∧ (t.port p).responses = r :: (s.port p).responses ∧ (t.port p).latch = none ∧
      (t.port p).result = none ∧ t.port p.other = s.port p.other ∧ t.queue = s.queue ∧ t.schedule = rest ∧
      t.resetAsserted = false ∧ t.serving = s.serving ∧ t.draws = s.draws

/-- 60_exceptions.md section 4, "PKTQ linearises them one after the other, never together. Which goes first is the
parameter `ARB`": with a command waiting on each port and the block's move next (named by the schedule, or with the schedule
empty, log entry 13), the step runs the one the arbiter picks; the other still waits with its operands, and has lost one
conflict more. When neither port has lost more than the bound, the choice is the free draw (the bound is log entry 7). -/
def Obligations.ConflictServesOneAndKeepsTheOther : Prop :=
  ∀ (s : State) (c d : Command), s.resetAsserted = false →
    (s.schedule = [] ∨ ∃ rest, s.schedule = .linearise :: rest) → s.portP.waiting = some c → s.portK.waiting = some d →
    ((s.arbiter = .P ∧ ∃ t, step s = .next t ∧ t.portP.waiting = none ∧ t.portP.result.isSome = true ∧
        t.portK.waiting = some d ∧ t.portK.losses = s.portK.losses + 1) ∨
     (s.arbiter = .K ∧ ∃ t, step s = .next t ∧ t.portK.waiting = none ∧ t.portK.result.isSome = true ∧
        t.portP.waiting = some c ∧ t.portP.losses = s.portP.losses + 1)) ∧
    (s.portP.losses ≤ Config.arbPatience → s.portK.losses ≤ Config.arbPatience →
      (s.arbiter = .P ↔ Config.arbPFirst s.draws = true))

/-- 60_exceptions.md section 4, "Arbitration is fair": from every state that meets the invariant, a command that has lost
more conflicts than the bound is the next to be linearised. The bound is a free constant, the model's choice (log entry 7). -/
def Obligations.StarvedCommandIsServedNext : Prop :=
  ∀ (s : State) (p : Port) (c : Command), s.Inv → s.resetAsserted = false → (s.port p).waiting = some c →
    Config.arbPatience < (s.port p).losses →
    ∃ t, s.nextCommand = some (c, t) ∧ t.serving = p ∧ t.queue = s.queue

/-- 60_exceptions.md section 4, the table of a PUSH on P and a POP on K outstanding together: after the block has
linearised both, the answers and the content are those of one of the two columns, and the arbiter decides which. Both are
linearised before either response, because the schedule says so, or because it is empty (log entry 13). -/
def Obligations.PushAndPopTogetherGiveOneOfTwoOutcomes : Prop :=
  ∀ (s : State) (v : Packet) (Q : List Packet), s.queue.Consistent → s.queue.content = Q.map some →
    s.resetAsserted = false → (s.schedule = [] ∨ ∃ rest, s.schedule = .linearise :: .linearise :: rest) →
    s.portP.waiting = some (encode (.push v)) → s.portK.waiting = some (encode .pop) →
    ∃ t aP aK, core.run 2 s = .next t ∧ t.answer .P = some aP ∧ t.answer .K = some aK ∧
      (s.arbiter = .P →
        aP = (listStep .P (.push v) Q).2 ∧ aK = (listStep .K .pop (listStep .P (.push v) Q).1).2 ∧
        t.queue.content = (listStep .K .pop (listStep .P (.push v) Q).1).1.map some) ∧
      (s.arbiter = .K →
        aK = (listStep .K .pop Q).2 ∧ aP = (listStep .P (.push v) (listStep .K .pop Q).1).2 ∧
        t.queue.content = (listStep .P (.push v) (listStep .K .pop Q).1).1.map some)

/-- R133, R134: reset sets HEAD, TAIL and LENGTH to 0 and does not write QSTORE; commands outstanding, linearised or not,
are abandoned and no response is returned for them. -/
def Obligations.ResetEmptiesQueueAndAbandonsCommands : Prop :=
  ∀ (s : State) (rest : List Event), s.schedule = .reset true :: rest →
    ∃ t, step s = .next t ∧ t.queue.head.val = 0 ∧ t.queue.tail.val = 0 ∧ t.queue.length.val = 0 ∧
      t.queue.qstore = s.queue.qstore ∧ t.queue.content = [] ∧
      (∀ p, (t.port p).latch = none ∧ (t.port p).result = none ∧ (t.port p).responses = (s.port p).responses) ∧
      t.resetAsserted = true ∧ t.schedule = rest

/-- R135: while reset is asserted, the block accepts no command, ignores what a port presents and raises no response; with
no move to come it stays as it is. -/
def Obligations.AssertedResetBlocksBothPorts : Prop :=
  ∀ s : State, s.resetAsserted = true →
    (∀ (e : Event) (rest : List Event), s.schedule = e :: rest →
      (∃ p c, e = .present p c) ∨ e = .linearise ∨ (∃ p, e = .deliver p) → step s = .next { s with schedule := rest }) ∧
    (s.schedule = [] → step s = .next s)

/-- R148: which runs the model refuses. A step refuses exactly when the host's next move presents a second command before
the response, changes the operands of an outstanding command, or reads an UNSPEC field; and, beyond that rule, when it
reads a field before any response (log entry 8) or the block loses power (60_exceptions.md section 5). -/
def Obligations.OnlyBreachesOfDutyAreRefused : Prop :=
  ∀ (s : State) (r : Refusal), step s = .refused r ↔
    (∃ p c rest, s.schedule = .present p c :: rest ∧ s.resetAsserted = false ∧ (s.port p).latch.isSome = true ∧
      r = .secondCommand p) ∨
    (∃ p g rest c, s.schedule = .drive p g :: rest ∧ (s.port p).latch = some c ∧ g ≠ some c ∧ r = .operandsChanged p) ∨
    (∃ p f rest a as, s.schedule = .read p f :: rest ∧ (s.port p).responses = a :: as ∧ r = .unspecRead p f ∧
      ((f = .size ∧ a.answer.size = none) ∨ (f = .data ∧ a.answer.data = none))) ∨
    (∃ p f rest, s.schedule = .read p f :: rest ∧ (s.port p).responses = [] ∧ r = .noResponse p f) ∨
    (∃ rest, s.schedule = .powerLoss :: rest ∧ r = .powerLost)

/-- 60_exceptions.md section 3, "Every command completes and returns a response", and 70_reset_and_hazards.md section 4,
"each command is answered": with no other move to come, four steps of the block answer whatever is outstanding, once. That the block goes on by itself
is the model's choice (log entry 13). -/
def Obligations.OutstandingCommandsAreAnswered : Prop :=
  ∀ s : State, s.Inv → s.resetAsserted = false → s.schedule = [] →
    ∃ t, core.run 4 s = .next t ∧ t.Ended ∧
      ∀ p, (t.port p).responses.length = (s.port p).responses.length + (if (s.port p).latch.isSome then 1 else 0) ∧
        (s.port p).responses <:+ (t.port p).responses

/-- R110 against the machine: on two free ports, presenting a command, linearising it and presenting its response are
three steps that end as the sequential step `transact` does, with its response. The three moves are the model's choice (log
entry 5). -/
def Obligations.ThreeStepsMakeOneTransaction : Prop :=
  ∀ (s : State) (p : Port) (c : Command), s.resetAsserted = false → s.portP.Free → s.portK.Free →
    ∃ r t, transact p c { s with schedule := [] } = some (r, t) ∧
      core.run 3 { s with schedule := [.present p c, .linearise, .deliver p] } = .next t ∧
      (t.port p).responses = r :: (s.port p).responses ∧ t.Ended

/-- 70_reset_and_hazards.md section 2: what the producer saw as room stays room, whatever the consumer issues in between,
and its PUSH sees no more elements than it saw. -/
def Obligations.RoomSeenByProducerStays : Prop :=
  ∀ (s : State) (cs : List Instr) (v : Packet), s.queue.length.val < 30 →
    ∃ t r u, runOn .K cs s = some t ∧ t.queue.length.val ≤ s.queue.length.val ∧
      transact .P (encode (.push v)) t = some (r, u) ∧ r.status = .ok

/-- 70_reset_and_hazards.md section 2: an element the consumer saw stays there, whatever the producer issues in between,
and its POP sees no fewer elements than it saw. -/
def Obligations.ElementSeenByConsumerStays : Prop :=
  ∀ (s : State) (cs : List Instr), 0 < s.queue.length.val →
    ∃ t r u, runOn .P cs s = some t ∧ s.queue.length.val ≤ t.queue.length.val ∧
      transact .K (encode .pop) t = some (r, u) ∧ r.status = .ok

/-- 10_state.md section 3, "This state is therefore not observable by any program": two states that differ only in slots
outside the occupied window take steps that differ in nothing else, and show the same. -/
def Obligations.StaleSlotsAreUnobservable : Prop :=
  ∀ s u : State, s.queue.Consistent → SameButStale s u →
    s.observation = u.observation ∧
    ((∃ t w, step s = .next t ∧ step u = .next w ∧ t.queue.Consistent ∧ SameButStale t w) ∨
      ∃ r, step s = .refused r ∧ step u = .refused r)

/-- R76: INGEST discards a short chunk, drops an invalid packet at its gate, and otherwise queues the decoded packet or
drops it when the queue is full. -/
def Obligations.IngestQueuesTheDecodedPacket : Prop :=
  ∀ (gate : Bool) (raw : List Byte) (idle : Packet) (s : State) (Q : List Packet), s.queue.Consistent →
    s.queue.content = Q.map some →
    ∃ e t, ingest gate raw idle s = some (e, t) ∧ t.queue.Consistent ∧
      if raw.length < 20 then e = .chunkDiscarded ∧ t.queue.content = Q.map some
      else if gate = true ∧ validUnder Config.checksum (Packet.pack (raw.take 20)) = false then
        e = .packetInvalid ∧ t.queue.content = Q.map some
      else if Q.length = 30 then e = .packetDropped ∧ t.queue.content = Q.map some
      else e = .packetQueued ∧ t.queue.content = (Q ++ [Packet.pack (raw.take 20)]).map some

/-- R76: CONSUME takes the oldest packet and delivers it, or drops it at its gate; with an empty queue it has nothing to
do. -/
def Obligations.ConsumeDeliversTheOldestPacket : Prop :=
  ∀ (gate : Bool) (s : State) (Q : List Packet), s.queue.Consistent → s.queue.content = Q.map some →
    ∃ e t, consume gate s = some (e, t) ∧ t.queue.Consistent ∧
      match Q with
      | [] => e = .nothingToDo ∧ t.queue.content = []
      | p :: rest => t.queue.content = rest.map some ∧
          e = if gate = true ∧ validUnder Config.checksum p = false then .packetInvalid else .packetDelivered p

/-! ### The moves of the hosts and of the reset source -/

/-- 60_exceptions.md section 5, "Both may act from the cycle after reset ends", and 70_reset_and_hazards.md section 1,
"every rule of this spec holds from the first accepted command": the release of reset changes nothing but the reset input,
and a command then presented on a port that has none outstanding is latched. (Reset as a level is log entry 14.) -/
def Obligations.ReleasedResetOpensBothPorts : Prop :=
  ∀ (s : State) (rest : List Event), s.schedule = .reset false :: rest →
    step s = .next { s with schedule := rest, resetAsserted := false } ∧
    ∀ (p : Port) (c : Command) (more : List Event), rest = .present p c :: more → (s.port p).latch = none →
      ∃ t, core.run 2 s = .next t ∧ (t.port p).latch = some c ∧ t.port p.other = s.port p.other ∧
        t.resetAsserted = false ∧ t.queue = s.queue ∧ t.schedule = more

/-- 60_exceptions.md section 4 (the port protocol, and a host may "issue any command at any time its port has none
outstanding"): a command presented on such a port is latched with all its operands, whatever the other port holds, and
nothing else changes; so two free ports come to have a command waiting each. (The move is log entry 5.) -/
def Obligations.PresentedCommandIsLatched : Prop :=
  (∀ (s : State) (p : Port) (c : Command) (rest : List Event), s.resetAsserted = false → (s.port p).latch = none →
    s.schedule = .present p c :: rest →
    ∃ t, step s = .next t ∧ t.port p = { s.port p with latch := some c } ∧ t.port p.other = s.port p.other ∧
      t.queue = s.queue ∧ t.serving = s.serving ∧ t.resetAsserted = false ∧ t.schedule = rest ∧ t.draws = s.draws) ∧
  (∀ (s : State) (p : Port) (c d : Command) (rest : List Event), s.resetAsserted = false → (s.port p).Free →
    (s.port p.other).Free → s.schedule = .present p c :: .present p.other d :: rest →
    ∃ t, core.run 2 s = .next t ∧ (t.port p).waiting = some c ∧ (t.port p.other).waiting = some d ∧
      t.queue = s.queue ∧ t.resetAsserted = false ∧ t.schedule = rest)

/-- 60_exceptions.md section 4 (the duties of a host, "hold operands stable until the response" and "not read a response field
marked UNSPEC"): a host that keeps these duties changes nothing. Signals that are those presented, and a read of a field
that the last response gives, leave everything but the schedule as it was; so do signals with nothing outstanding (log
entry 16). -/
def Obligations.AllowedHostMovesChangeNothing : Prop :=
  ∀ (s : State) (rest : List Event),
    (∀ (p : Port) (signals : Option Command), s.schedule = .drive p signals :: rest →
      (s.port p).latch = none ∨ (s.port p).latch = signals → step s = .next { s with schedule := rest }) ∧
    (∀ (p : Port) (f : Field) (a : Response) (older : List Response), s.schedule = .read p f :: rest →
      (s.port p).responses = a :: older →
      (f = .size → a.answer.size.isSome = true) → (f = .data → a.answer.data.isSome = true) →
      step s = .next { s with schedule := rest })

/-! ### No port starves the other -/

/-- 60_exceptions.md section 4, "Arbitration is fair: each outstanding command is linearised, and answered": when a command
of port `p` is linearised while the other port's response is due, that response is presented if it was passed more often
than the bound, and else stays due and was passed once more. (The bound and its unit are log entry 7; the block's move with
the schedule empty is log entry 13.) -/
def Obligations.OverdueResponseIsPresented : Prop :=
  ∀ (s : State) (p : Port) (c : Command) (r : Response), s.resetAsserted = false →
    (s.schedule = [] ∨ ∃ rest, s.schedule = .linearise :: rest) → (s.port p).waiting = some c →
    (s.port p.other).result = some r →
    ∃ t, step s = .next t ∧ t.serving = p ∧ (t.port p).result.isSome = true ∧
      (Config.arbPatience < (s.port p.other).losses → (t.port p.other).Free ∧
        (t.port p.other).responses = r :: (s.port p.other).responses) ∧
      ((s.port p.other).losses ≤ Config.arbPatience →
        t.port p.other = { s.port p.other with losses := (s.port p.other).losses + 1 })

/-- 60_exceptions.md section 4, "each outstanding command is linearised, and answered, within a bounded number of cycles,
however busy the other port is. No port can starve the other": in every run without a reset, from every state that meets the
invariant, while a command of port `p` is not answered the other port gets a bounded number of responses. (The bound counts
the other port's commands, since the model has no cycles: log entry 7.) -/
def Obligations.NoPortStarvesTheOther : Prop :=
  ∀ (s t : State) (p : Port) (n : Nat), s.Inv → s.resetAsserted = false → (∀ b, Event.reset b ∉ s.schedule) →
    (s.port p).latch.isSome = true → core.run n s = .next t →
    (t.port p).responses.length = (s.port p).responses.length →
    (t.port p.other).responses.length ≤ (s.port p.other).responses.length + 2 * Config.arbPatience + 3
end

