-- ==== Sys2Proof/Laws/Queue.lean ====
section
/-! SUPPORT. What the queue's operations do: memory read after write, and one lemma per operation that says everything
it can do. -/

namespace Sys2Proof.Machine.Queue

variable {C : Nat} {T : Type}

@[simp] theorem next_val (i : Fin C) : (next i).val = (i.val + 1) % C := rfl
@[simp] theorem slot_val (q : Queue C T) (i : Nat) : (q.slot i).val = (q.head.val + i) % C := rfl

@[simp] theorem memWrite_head (q : Queue C T) (i : Fin C) (v : T) : (q.memWrite i v).head = q.head := rfl
@[simp] theorem memWrite_tail (q : Queue C T) (i : Fin C) (v : T) : (q.memWrite i v).tail = q.tail := rfl
@[simp] theorem memWrite_length (q : Queue C T) (i : Fin C) (v : T) : (q.memWrite i v).length = q.length := rfl

@[simp] theorem memRead_memWrite_same (q : Queue C T) (i : Fin C) (v : T) : (q.memWrite i v).memRead i = some v := by
  simp [memRead, memWrite]

theorem memRead_memWrite_other (q : Queue C T) {i j : Fin C} (v : T) (h : j ≠ i) :
    (q.memWrite i v).memRead j = q.memRead j := by
  have h' : i.val ≠ j.val := fun e => h (Fin.ext e.symm)
  simp [memRead, memWrite, h']

theorem memRead_memWrite (q : Queue C T) (i j : Fin C) (v : T) :
    (q.memWrite i v).memRead j = if j = i then some v else q.memRead j := by
  split
  · subst_vars; simp
  · exact memRead_memWrite_other q v ‹_›

/-- Every slot of a fresh queue is unwritten (R35). -/
@[simp] theorem memRead_fresh (hC : 0 < C) (i : Fin C) : (fresh C T hC).memRead i = none := by
  simp [memRead, fresh]

theorem push_eq_none {q : Queue C T} {v : T} : q.push v = none ↔ q.length.val = C := by
  unfold push; split <;> simp_all

/-- Everything a successful PUSH does (R97). -/
theorem push_eq_some {q q' : Queue C T} {v : T} (h : q.push v = some q') :
    q.length.val < C ∧ q'.head = q.head ∧ q'.tail.val = (q.tail.val + 1) % C ∧
      q'.length.val = q.length.val + 1 ∧ ∀ j, q'.memRead j = if j = q.tail then some v else q.memRead j := by
  unfold push at h
  split at h
  · cases h
  · have hl := q.length.isLt
    cases h
    exact ⟨by omega, rfl, rfl, rfl, fun j => memRead_memWrite q q.tail j v⟩

theorem push_some_of_lt (q : Queue C T) (v : T) (h : q.length.val < C) : ∃ q', q.push v = some q' := by
  unfold push; rw [dif_neg (by omega)]; exact ⟨_, rfl⟩

theorem pop_eq_none {q : Queue C T} : q.pop = none ↔ q.length.val = 0 := by
  unfold pop; split <;> simp_all

/-- Everything a successful POP does (R99). -/
theorem pop_eq_some {q q' : Queue C T} {v : Option T} (h : q.pop = some (v, q')) :
    0 < q.length.val ∧ v = q.memRead q.head ∧ q'.head.val = (q.head.val + 1) % C ∧ q'.tail = q.tail ∧
      q'.length.val = q.length.val - 1 ∧ ∀ j, q'.memRead j = q.memRead j := by
  unfold pop at h
  split at h
  · cases h
  · cases h
    exact ⟨by omega, rfl, rfl, rfl, rfl, fun _ => rfl⟩

theorem pop_some_of_pos (q : Queue C T) (h : 0 < q.length.val) : ∃ v q', q.pop = some (v, q') := by
  unfold pop; rw [if_neg (by omega)]; exact ⟨_, _, rfl⟩

@[simp] theorem reset_head (q : Queue C T) : q.reset.head.val = 0 := rfl
@[simp] theorem reset_tail (q : Queue C T) : q.reset.tail.val = 0 := rfl
@[simp] theorem reset_length (q : Queue C T) : q.reset.length.val = 0 := rfl
@[simp] theorem reset_qstore (q : Queue C T) : q.reset.qstore = q.qstore := rfl
@[simp] theorem reset_memRead (q : Queue C T) (j : Fin C) : q.reset.memRead j = q.memRead j := rfl

@[simp] theorem content_length (q : Queue C T) : q.content.length = q.length.val := by simp [content]

theorem content_getElem? (q : Queue C T) (i : Nat) :
    q.content[i]? = if i < q.length.val then some (q.memRead (q.slot i)) else none := by
  unfold content
  by_cases h : i < q.length.val <;> simp [h]

end Sys2Proof.Machine.Queue
end

