-- ==== Sys2Proof/Laws/Content.lean ====
section
/-! SUPPORT. The slots of the occupied window, and what a successful PUSH and POP do to the abstract content (R27). -/

namespace Sys2Proof.Machine.Queue

variable {C : Nat} {T : Type} {q q' : Queue C T}

theorem slot_zero (q : Queue C T) : q.slot 0 = q.head := Fin.ext (by simp [Nat.mod_eq_of_lt])

theorem slot_push {v : T} (h : q.push v = some q') (i : Nat) : q'.slot i = q.slot i :=
  Fin.ext (by simp [(push_eq_some h).2.1])

theorem slot_pop {v : Option T} (h : q.pop = some (v, q')) (i : Nat) : q'.slot i = q.slot (i + 1) :=
  Fin.ext (by simp [(pop_eq_some h).2.2.1, Nat.add_left_comm, Nat.add_comm])

/-- TAIL is the slot just beyond the occupied window (R26). -/
theorem slot_length (hc : q.Consistent) : q.slot q.length.val = q.tail := Fin.ext (by simp [hc.tail])

/-- While the queue is not full, TAIL is no slot of the occupied window. -/
theorem slot_ne_tail (hc : q.Consistent) (hl : q.length.val < C) {i : Nat} (hi : i < q.length.val) :
    q.slot i ≠ q.tail := by
  intro e
  have hm : q.head.val + i ≡ q.head.val + q.length.val [MOD C] := by
    have := congrArg Fin.val e
    simpa [hc.tail, Nat.ModEq] using this
  have := Nat.ModEq.eq_of_lt_of_lt (Nat.ModEq.add_left_cancel' _ hm) (by omega) hl
  omega

theorem consistent_push {v : T} (hc : q.Consistent) (h : q.push v = some q') : q'.Consistent := by
  obtain ⟨-, hh, ht, hl, hr⟩ := push_eq_some h
  constructor
  · rw [ht, hl, hh, hc.tail]; simp [Nat.add_assoc]
  · intro i hi
    rw [hr, slot_push h]
    split
    · rfl
    next hne =>
      rcases Nat.lt_or_eq_of_le (Nat.lt_succ_iff.1 (hl ▸ hi)) with hi | hi
      · exact hc.written i hi
      · exact absurd (hi ▸ slot_length hc) hne

/-- A successful PUSH appends to the content (R27). -/
theorem content_push {v : T} (hc : q.Consistent) (h : q.push v = some q') : q'.content = q.content ++ [some v] := by
  obtain ⟨hlt, -, -, hl, hr⟩ := push_eq_some h
  apply List.ext_getElem?
  intro i
  rw [content_getElem?, List.getElem?_append, content_length, content_getElem?, hl, hr, slot_push h]
  by_cases hi : i < q.length.val
  · rw [if_pos (by omega), if_pos hi, if_pos hi, if_neg (slot_ne_tail hc hlt hi)]
  · by_cases he : i = q.length.val
    · subst he; simp [slot_length hc]
    · have : ¬ i < q.length.val + 1 := by omega
      have : i - q.length.val ≠ 0 := by omega
      simp [*]

theorem consistent_pop {v : Option T} (hc : q.Consistent) (h : q.pop = some (v, q')) : q'.Consistent := by
  obtain ⟨hpos, -, hh, ht, hl, hr⟩ := pop_eq_some h
  constructor
  · have e : q.head.val + q.length.val = q.head.val + 1 + (q.length.val - 1) := by omega
    rw [ht, hl, hh, hc.tail, e]; simp
  · intro i hi
    rw [hr, slot_pop h]
    exact hc.written _ (by omega)

/-- A successful POP takes the head of the content (R27). -/
theorem content_pop {v : Option T} (h : q.pop = some (v, q')) : q.content = v :: q'.content := by
  obtain ⟨hpos, hv, -, -, hl, hr⟩ := pop_eq_some h
  apply List.ext_getElem?
  intro i
  rw [content_getElem?]
  cases i with
  | zero => simp [hpos, hv, slot_zero]
  | succ i =>
    have hi : i + 1 < q.length.val ↔ i < q.length.val - 1 := by omega
    simp [content_getElem?, hl, hr, slot_pop h, hi]

/-- After reset the content is empty (R133). -/
theorem consistent_reset (q : Queue C T) : q.reset.Consistent := ⟨by simp, fun i hi => by simp at hi⟩

theorem content_reset (q : Queue C T) : q.reset.content = [] := rfl

theorem consistent_fresh (hC : 0 < C) : (fresh C T hC).Consistent := ⟨by simp [fresh], fun i hi => by simp [fresh] at hi⟩

theorem content_fresh (hC : 0 < C) : (fresh C T hC).content = [] := rfl

end Sys2Proof.Machine.Queue
end

