-- ==== Sys2Proof/Laws/State.lean ====
section
/-! SUPPORT. One lemma per field per update of the state. -/

namespace Sys2Proof.Machine

@[simp] theorem Port_other_other (p : Port) : p.other.other = p := by cases p <;> rfl
@[simp] theorem Port_other_ne (p : Port) : p.other ≠ p := by cases p <;> decide
@[simp] theorem Port_ne_other (p : Port) : p ≠ p.other := by cases p <;> decide
@[simp] theorem Port_other_P : Port.other .P = .K := rfl
@[simp] theorem Port_other_K : Port.other .K = .P := rfl

namespace PortState

/-! `delivered` and `passedOver` -/

theorem delivered_of_result {ps : PortState} {r : Response} (h : ps.result = some r) :
    ps.delivered = { latch := none, result := none, losses := 0, responses := r :: ps.responses } := by
  simp [delivered, h]

theorem passedOver_of_free {ps : PortState} (hl : ps.latch = none) (hr : ps.result = none) : ps.passedOver = ps := by
  simp [passedOver, hl, hr]

/-- A waiting command has lost one conflict more. -/
theorem passedOver_of_waiting {ps : PortState} (hl : ps.latch.isSome = true) (hr : ps.result = none) :
    ps.passedOver = { ps with losses := ps.losses + 1 } := by
  obtain ⟨c, hc⟩ := Option.isSome_iff_exists.1 hl
  simp [passedOver, hc, hr]

/-- A response within the bound stays due and was passed once more. -/
theorem passedOver_of_due {ps : PortState} (hr : ps.result.isSome = true) (hb : ps.losses ≤ Config.arbPatience) :
    ps.passedOver = { ps with losses := ps.losses + 1 } := by
  obtain ⟨r, h⟩ := Option.isSome_iff_exists.1 hr
  simp [passedOver, h, Nat.not_lt.2 hb]

/-- A response beyond the bound is presented. -/
theorem passedOver_of_overdue {ps : PortState} {r : Response} (hr : ps.result = some r)
    (hb : Config.arbPatience < ps.losses) :
    ps.passedOver = { latch := none, result := none, losses := 0, responses := r :: ps.responses } := by
  simp [passedOver, delivered, hr, hb]

/-- What `passedOver` can do. -/
theorem passedOver_cases (ps : PortState) :
    (ps.latch = none ∧ ps.result = none ∧ ps.passedOver = ps) ∨
    ((ps.latch.isSome = true ∨ ps.result.isSome = true) ∧ (ps.result.isSome = true → ps.losses ≤ Config.arbPatience) ∧
      ps.passedOver = { ps with losses := ps.losses + 1 }) ∨
    (∃ r, ps.result = some r ∧ Config.arbPatience < ps.losses ∧
      ps.passedOver = { latch := none, result := none, losses := 0, responses := r :: ps.responses }) := by
  rcases Option.eq_none_or_eq_some ps.result with hr | ⟨r, hr⟩
  · rcases Option.eq_none_or_eq_some ps.latch with hl | ⟨c, hl⟩
    · exact .inl ⟨hl, hr, passedOver_of_free hl hr⟩
    · have hs : ps.latch.isSome = true := by simp [hl]
      exact .inr (.inl ⟨.inl hs, by simp [hr], passedOver_of_waiting hs hr⟩)
  · have hs : ps.result.isSome = true := by simp [hr]
    rcases Nat.lt_or_ge Config.arbPatience ps.losses with hb | hb
    · exact .inr (.inr ⟨r, hr, hb, passedOver_of_overdue hr hb⟩)
    · exact .inr (.inl ⟨.inr hs, fun _ => hb, passedOver_of_due hs hb⟩)

end PortState

namespace State

@[simp] theorem port_P (s : State) : s.port .P = s.portP := rfl
@[simp] theorem port_K (s : State) : s.port .K = s.portK := rfl

/-! `setPort` -/

@[simp] theorem port_setPort (s : State) (p : Port) (ps : PortState) : (s.setPort p ps).port p = ps := by
  cases p <;> rfl
@[simp] theorem port_setPort_other (s : State) (p : Port) (ps : PortState) :
    (s.setPort p ps).port p.other = s.port p.other := by cases p <;> rfl
@[simp] theorem port_other_setPort (s : State) (p : Port) (ps : PortState) :
    (s.setPort p.other ps).port p = s.port p := by cases p <;> rfl
@[simp] theorem setPort_P_portP (s : State) (ps : PortState) : (s.setPort .P ps).portP = ps := rfl
@[simp] theorem setPort_P_portK (s : State) (ps : PortState) : (s.setPort .P ps).portK = s.portK := rfl
@[simp] theorem setPort_K_portP (s : State) (ps : PortState) : (s.setPort .K ps).portP = s.portP := rfl
@[simp] theorem setPort_K_portK (s : State) (ps : PortState) : (s.setPort .K ps).portK = ps := rfl
@[simp] theorem setPort_queue (s : State) (p : Port) (ps : PortState) : (s.setPort p ps).queue = s.queue := by
  cases p <;> rfl
@[simp] theorem setPort_serving (s : State) (p : Port) (ps : PortState) : (s.setPort p ps).serving = s.serving := by
  cases p <;> rfl
@[simp] theorem setPort_resetAsserted (s : State) (p : Port) (ps : PortState) :
    (s.setPort p ps).resetAsserted = s.resetAsserted := by cases p <;> rfl
@[simp] theorem setPort_schedule (s : State) (p : Port) (ps : PortState) :
    (s.setPort p ps).schedule = s.schedule := by cases p <;> rfl
@[simp] theorem setPort_draws (s : State) (p : Port) (ps : PortState) : (s.setPort p ps).draws = s.draws := by
  cases p <;> rfl

/-! Reading a port through the update of another field -/

@[simp] theorem port_with_queue (s : State) (q : Queue Config.capacity Packet) (p : Port) :
    ({ s with queue := q } : State).port p = s.port p := by cases p <;> rfl
@[simp] theorem port_with_serving (s : State) (x p : Port) : ({ s with serving := x } : State).port p = s.port p := by
  cases p <;> rfl
@[simp] theorem port_with_schedule (s : State) (l : List Event) (p : Port) :
    ({ s with schedule := l } : State).port p = s.port p := by cases p <;> rfl
@[simp] theorem port_with_draws (s : State) (n : Nat) (p : Port) : ({ s with draws := n } : State).port p = s.port p := by
  cases p <;> rfl
@[simp] theorem port_with_resetAsserted (s : State) (b : Bool) (p : Port) :
    ({ s with resetAsserted := b } : State).port p = s.port p := by cases p <;> rfl

/-! `respond` -/

section
variable (s : State) (st : Status) (f : Bool) (sz : Option (BitVec Config.lenW)) (d : Option Packet)

@[simp] theorem respond_queue : (s.respond st f sz d).queue = s.queue := by simp [respond]
@[simp] theorem respond_serving : (s.respond st f sz d).serving = s.serving := by simp [respond]
@[simp] theorem respond_resetAsserted : (s.respond st f sz d).resetAsserted = s.resetAsserted := by simp [respond]
@[simp] theorem respond_schedule : (s.respond st f sz d).schedule = s.schedule := by simp [respond]
@[simp] theorem respond_draws : (s.respond st f sz d).draws = s.draws + 1 := rfl
@[simp] theorem respond_port_serving : (s.respond st f sz d).port s.serving =
    { s.port s.serving with result := some (s.response st f sz d) } := by
  unfold respond; cases s.serving <;> rfl
@[simp] theorem respond_port_other : (s.respond st f sz d).port s.serving.other = s.port s.serving.other := by
  unfold respond; cases s.serving <;> rfl

end

theorem raise_eq (s : State) (st : Status) : s.raise st = s.respond st false none none := rfl
theorem illegal_eq (s : State) : s.illegal = s.respond .illegalCommand false none none := rfl

end State

end Sys2Proof.Machine
end

