-- ==== Sys2Proof/Laws/Exec.lean ====
section
/-! SUPPORT. What a command can do: every command answers once, and the queue is left alone but for a successful PUSH on
port P and a successful POP on port K. -/

namespace Sys2Proof.Machine

/-- What `driven` carries by the rules is what was given. -/
@[simp] theorem given_driven {w : Nat} (g : Option (BitVec w)) (d : BitVec w) : (State.driven g d).given = g := by
  cases g <;> rfl

namespace State

@[simp] theorem answer_response (s : State) (st : Status) (f : Bool) (sz : Option (BitVec Config.lenW))
    (d : Option Packet) : (s.response st f sz d).answer = ⟨st, f, sz, d⟩ := by
  simp [response, Response.answer]

/-- The answer a command gives is the one it responds with. -/
@[simp] theorem answer_respond (s : State) (st : Status) (f : Bool) (sz : Option (BitVec Config.lenW))
    (d : Option Packet) : (s.respond st f sz d).answer s.serving = some ⟨st, f, sz, d⟩ := by
  simp [answer]

theorem answer_respond_on {s : State} {p : Port} (h : s.serving = p) (st : Status) (f : Bool)
    (sz : Option (BitVec Config.lenW)) (d : Option Packet) : (s.respond st f sz d).answer p = some ⟨st, f, sz, d⟩ := by
  subst h; exact answer_respond ..

/-- LENGTH is at most the capacity of this hardware (R21). -/
theorem length_le (s : State) : s.queue.length.val ≤ 30 := Nat.lt_succ_iff.1 s.queue.length.isLt

/-- A response changes nothing but the served port's answer and the draw counter. -/
theorem onlyAnswers_respond (s : State) (q : Queue Config.capacity Packet) (st : Status) (f : Bool)
    (sz : Option (BitVec Config.lenW)) (d : Option Packet) :
    OnlyAnswers s (({ s with queue := q } : State).respond st f sz d) := by
  have h := respond_port_serving ({ s with queue := q } : State) st f sz d
  have h' := respond_port_other ({ s with queue := q } : State) st f sz d
  constructor <;> simp_all

end State

/-- How a command may leave the queue: as it is, or after one PUSH on port P, or after one POP on port K. -/
inductive QueueMove (p : Port) (i : Instr) (q q' : Queue Config.capacity Packet) : Prop
  | same (h : q' = q)
  | push (v : Packet) (hi : i = .push v) (hp : p = .P) (h : q.push v = some q')
  | pop (v : Option Packet) (hi : i = .pop) (hp : p = .K) (h : q.pop = some (v, q'))

/-- The inversion of `exec`: every command, in every state, completes with one response. -/
theorem exec_answers (i : Instr) (s : State) :
    ∃ (q : Queue Config.capacity Packet) (a : Answer), exec i s = .next (({ s with queue := q } : State).respond a.status a.flag a.size a.data) ∧
      QueueMove s.serving i s.queue q := by
  cases i with
  | decode len data =>
    simp only [exec, execDecode]
    cases unpack len data with
    | none => exact ⟨s.queue, ⟨.tooShort, false, none, none⟩, rfl, .same rfl⟩
    | some p => exact ⟨s.queue, ⟨.ok, true, none, some p⟩, rfl, .same rfl⟩
  | validate p =>
    simp only [exec, execValidate]
    split
    · exact ⟨s.queue, ⟨.ok, true, none, none⟩, rfl, .same rfl⟩
    · exact ⟨s.queue, ⟨.validationFailure, false, none, none⟩, rfl, .same rfl⟩
  | push v =>
    simp only [exec, execPush]
    split
    next hp =>
      cases h : s.queue.push v with
      | none => exact ⟨s.queue, ⟨.queueFull, false, none, none⟩, rfl, .same rfl⟩
      | some q => exact ⟨q, ⟨.ok, true, none, none⟩, rfl, .push v rfl (by simpa [legalOn] using hp) h⟩
    · exact ⟨s.queue, ⟨.illegalCommand, false, none, none⟩, rfl, .same rfl⟩
  | pop =>
    simp only [exec, execPop]
    split
    next hp =>
      cases h : s.queue.pop with
      | none => exact ⟨s.queue, ⟨.queueEmpty, false, none, none⟩, rfl, .same rfl⟩
      | some vq => exact ⟨vq.2, ⟨.ok, true, none, some (s.element vq.1)⟩, rfl, .pop vq.1 rfl (by simpa [legalOn] using hp) h⟩
    · exact ⟨s.queue, ⟨.illegalCommand, false, none, none⟩, rfl, .same rfl⟩
  | isEmpty => exact ⟨s.queue, ⟨.ok, s.queue.isEmpty, none, none⟩, rfl, .same rfl⟩
  | isFull => exact ⟨s.queue, ⟨.ok, s.queue.isFull, none, none⟩, rfl, .same rfl⟩
  | size => exact ⟨s.queue, ⟨.ok, true, some (sizeField s.queue), none⟩, rfl, .same rfl⟩
  | reserved => exact ⟨s.queue, ⟨.illegalCommand, false, none, none⟩, rfl, .same rfl⟩

/-- A command's meaning reads the queue, the served port and the draw counter, and nothing else of the state. -/
theorem exec_reads (i : Instr) {s u : State} (hq : s.queue = u.queue) (hp : s.serving = u.serving)
    (hd : s.draws = u.draws) :
    ∃ (q : Queue Config.capacity Packet) (a : Answer),
      exec i s = .next (({ s with queue := q } : State).respond a.status a.flag a.size a.data) ∧
      exec i u = .next (({ u with queue := q } : State).respond a.status a.flag a.size a.data) := by
  obtain ⟨Q, sP, sK, p, sr, ss, n⟩ := s
  obtain ⟨Q', uP, uK, p', ur, us, n'⟩ := u
  obtain rfl : Q = Q' := hq
  obtain rfl : p = p' := hp
  obtain rfl : n = n' := hd
  cases i with
  | decode len data =>
    simp only [exec, execDecode]
    cases unpack len data with
    | none => exact ⟨Q, ⟨.tooShort, false, none, none⟩, rfl, rfl⟩
    | some p => exact ⟨Q, ⟨.ok, true, none, some p⟩, rfl, rfl⟩
  | validate p =>
    simp only [exec, execValidate]
    split
    · exact ⟨Q, ⟨.ok, true, none, none⟩, rfl, rfl⟩
    · exact ⟨Q, ⟨.validationFailure, false, none, none⟩, rfl, rfl⟩
  | push v =>
    simp only [exec, execPush]
    split
    · cases Q.push v with
      | none => exact ⟨Q, ⟨.queueFull, false, none, none⟩, rfl, rfl⟩
      | some q => exact ⟨q, ⟨.ok, true, none, none⟩, rfl, rfl⟩
    · exact ⟨Q, ⟨.illegalCommand, false, none, none⟩, rfl, rfl⟩
  | pop =>
    simp only [exec, execPop]
    split
    · cases Q.pop with
      | none => exact ⟨Q, ⟨.queueEmpty, false, none, none⟩, rfl, rfl⟩
      | some vq => exact ⟨vq.2, ⟨.ok, true, none, some (vq.1.getD (Config.slotContent n))⟩, rfl, rfl⟩
    · exact ⟨Q, ⟨.illegalCommand, false, none, none⟩, rfl, rfl⟩
  | isEmpty => exact ⟨Q, ⟨.ok, Q.isEmpty, none, none⟩, rfl, rfl⟩
  | isFull => exact ⟨Q, ⟨.ok, Q.isFull, none, none⟩, rfl, rfl⟩
  | size => exact ⟨Q, ⟨.ok, true, some (sizeField Q), none⟩, rfl, rfl⟩
  | reserved => exact ⟨Q, ⟨.illegalCommand, false, none, none⟩, rfl, rfl⟩

end Sys2Proof.Machine
end

