-- ==== Sys2Proof/Laws/Packet.lean ====
section
/-! SUPPORT. The bits of a packet value: a byte of `p`, and the lanes of `pack`. -/

namespace Sys2Proof.Packet

theorem byte_getLsbD (p : Packet) (i k : Nat) : (byte p i).getLsbD k = (decide (k < 8) && p.getLsbD (8 * i + k)) := by
  simp [byte]

/-- Lane `i` of `pack w` carries `w[i]` (R61). -/
theorem pack_getLsbD (w : List Byte) (n : Nat) :
    (pack w).getLsbD n = (decide (n < 160) && ((w[n / 8]?).getD 0).getLsbD (n % 8)) := by
  induction w generalizing n with
  | nil => simp [pack]
  | cons b rest ih =>
    by_cases h8 : n < 8
    · have h0 : n / 8 = 0 := by omega
      have hm : n % 8 = n := by omega
      simp [pack, h8, h0, hm]
    · have hd : n / 8 = (n - 8) / 8 + 1 := by omega
      have hm : n % 8 = (n - 8) % 8 := by omega
      have hb : b.getLsbD n = false := BitVec.getLsbD_of_ge _ _ (by omega)
      have hlt : n < 160 → n - 8 < 160 := by omega
      rw [hd, hm, pack, BitVec.getLsbD_or, BitVec.getLsbD_shiftLeft, ih]
      by_cases hn : n < 160 <;> simp [h8, hb, hn]
      exact fun _ => hlt hn

theorem byte_pack (w : List Byte) (i : Nat) (hi : i < 20) : byte (pack w) i = (w[i]?).getD 0 := by
  apply BitVec.eq_of_getLsbD_eq
  intro k hk
  have h1 : (8 * i + k) / 8 = i := by omega
  have h2 : (8 * i + k) % 8 = k := by omega
  have h3 : 8 * i + k < 160 := by omega
  rw [byte_getLsbD, pack_getLsbD, h1, h2]
  simp [hk, h3]

/-- Two packet values with the same 20 bytes are equal (R54). -/
theorem eq_of_byte_eq {p q : Packet} (h : ∀ i, i < 20 → byte p i = byte q i) : p = q := by
  apply BitVec.eq_of_getLsbD_eq
  intro n hn
  have hb : (byte p (n / 8)).getLsbD (n % 8) = (byte q (n / 8)).getLsbD (n % 8) := by rw [h (n / 8) (by omega)]
  have hn' : 8 * (n / 8) + n % 8 = n := by omega
  have h8 : n % 8 < 8 := by omega
  rw [byte_getLsbD, byte_getLsbD, hn'] at hb
  simpa [h8] using hb

end Sys2Proof.Packet
end

