-- ==== Sys2Proof/Laws/PerInstr.lean ====
section
/-! SUPPORT. Statements made per instruction. OpcodeRow: the encoder drives the opcode of the command's row, and every
command with that opcode decodes to the same row of the opcode map (R65, R66, R77). -/

namespace Sys2Proof.Laws.OpcodeRow

def Statement (i : Sys2Proof.Instr) : Prop :=
  (Sys2Proof.encode i).op = i.opcode ∧
    ∀ c : Sys2Proof.Command, c.op = i.opcode →
      (Sys2Proof.decode c).mnemonic = i.mnemonic ∧ (Sys2Proof.decode c).format = i.format

theorem decode (len : BitVec 8) (data : BitVec 160) : Statement (.decode len data) :=
  ⟨rfl, fun ⟨_, _, _⟩ h => by cases h; exact ⟨rfl, rfl⟩⟩

theorem validate (p : Sys2Proof.Packet) : Statement (.validate p) :=
  ⟨rfl, fun ⟨_, _, _⟩ h => by cases h; exact ⟨rfl, rfl⟩⟩

theorem push (v : Sys2Proof.Packet) : Statement (.push v) :=
  ⟨rfl, fun ⟨_, _, _⟩ h => by cases h; exact ⟨rfl, rfl⟩⟩

theorem pop : Statement .pop := ⟨rfl, fun ⟨_, _, _⟩ h => by cases h; exact ⟨rfl, rfl⟩⟩

theorem isEmpty : Statement .isEmpty := ⟨rfl, fun ⟨_, _, _⟩ h => by cases h; exact ⟨rfl, rfl⟩⟩

theorem isFull : Statement .isFull := ⟨rfl, fun ⟨_, _, _⟩ h => by cases h; exact ⟨rfl, rfl⟩⟩

theorem size : Statement .size := ⟨rfl, fun ⟨_, _, _⟩ h => by cases h; exact ⟨rfl, rfl⟩⟩

theorem reserved : Statement .reserved := ⟨rfl, fun ⟨_, _, _⟩ h => by cases h; exact ⟨rfl, rfl⟩⟩

end Sys2Proof.Laws.OpcodeRow
end

