-- ==== Sys2Proof/Laws/Step.lean ====
section
/-! SUPPORT. What a step can do: which command the block linearises next, and the kinds of step there are. -/

namespace Sys2Proof.Machine.State

@[simp] theorem serve_queue (s : State) (p : Port) : (s.serve p).queue = s.queue := by simp [serve]
@[simp] theorem serve_serving (s : State) (p : Port) : (s.serve p).serving = p := rfl
@[simp] theorem serve_schedule (s : State) (p : Port) : (s.serve p).schedule = s.schedule := by simp [serve]
@[simp] theorem serve_resetAsserted (s : State) (p : Port) : (s.serve p).resetAsserted = s.resetAsserted := by
  simp [serve]
@[simp] theorem serve_draws (s : State) (p : Port) : (s.serve p).draws = s.draws := by simp [serve]
@[simp] theorem serve_port (s : State) (p : Port) : (s.serve p).port p = { s.port p with losses := 0 } := by
  cases p <;> rfl
@[simp] theorem serve_port_other (s : State) (p : Port) :
    (s.serve p).port p.other = (s.port p.other).passedOver := by cases p <;> rfl

@[simp] theorem serveFirst_queue (s : State) (p : Port) : (s.serveFirst p).queue = s.queue := by simp [serveFirst]
@[simp] theorem serveFirst_serving (s : State) (p : Port) : (s.serveFirst p).serving = p := by simp [serveFirst]
@[simp] theorem serveFirst_schedule (s : State) (p : Port) : (s.serveFirst p).schedule = s.schedule := by
  simp [serveFirst]
@[simp] theorem serveFirst_resetAsserted (s : State) (p : Port) :
    (s.serveFirst p).resetAsserted = s.resetAsserted := by simp [serveFirst]
@[simp] theorem serveFirst_draws (s : State) (p : Port) : (s.serveFirst p).draws = s.draws + 1 := rfl
@[simp] theorem serveFirst_port (s : State) (p : Port) :
    (s.serveFirst p).port p = { s.port p with losses := 0 } := by cases p <;> rfl
@[simp] theorem serveFirst_port_other (s : State) (p : Port) :
    (s.serveFirst p).port p.other = (s.port p.other).passedOver := by cases p <;> rfl

/-- A command waits on a port exactly when it is latched and not yet linearised. -/
theorem waiting_eq_some {ps : PortState} {c : Command} :
    ps.waiting = some c ↔ ps.latch = some c ∧ ps.result = none := by
  unfold PortState.waiting; cases ps.result <;> simp

/-- The inversion of `nextCommand`: the command comes from a port where it waits, alone or as the arbiter's choice. -/
theorem nextCommand_cases {s t : State} {c : Command} (h : s.nextCommand = some (c, t)) :
    s.resetAsserted = false ∧ ∃ p, (s.port p).waiting = some c ∧
      (((s.port p.other).waiting = none ∧ t = s.serve p) ∨
        (∃ d, (s.port p.other).waiting = some d ∧ s.arbiter = p ∧ t = s.serveFirst p)) := by
  unfold nextCommand at h
  split at h
  · cases h
  next hr =>
    refine ⟨by simpa using hr, ?_⟩
    split at h
    · cases h
    next c' hp hk => cases h; exact ⟨.P, hp, .inl ⟨hk, rfl⟩⟩
    next d hp hk => cases h; exact ⟨.K, hk, .inl ⟨hp, rfl⟩⟩
    next c' d hp hk =>
      split at h
      next ha => cases h; exact ⟨.P, hp, .inr ⟨d, hk, ha, rfl⟩⟩
      next ha => cases h; exact ⟨.K, hk, .inr ⟨c', hp, ha, rfl⟩⟩

/-- With reset not asserted and a command waiting on exactly one port, that command is the next one. -/
theorem nextCommand_alone {s : State} {p : Port} {c : Command} (hr : s.resetAsserted = false)
    (hp : (s.port p).waiting = some c) (ho : (s.port p.other).waiting = none) :
    s.nextCommand = some (c, s.serve p) := by
  cases p <;> simp_all [nextCommand]

/-- With reset not asserted and a command waiting on each port, the arbiter's choice is the next one (R124). -/
theorem nextCommand_conflict {s : State} {p : Port} {c : Command} (hr : s.resetAsserted = false)
    (hp : (s.port p).waiting = some c) (ho : (s.port p.other).waiting.isSome = true) (ha : s.arbiter = p) :
    s.nextCommand = some (c, s.serveFirst p) := by
  obtain ⟨d, hd⟩ := Option.isSome_iff_exists.1 ho
  cases p <;> simp_all [nextCommand]

/-- While reset is asserted no command is linearised (R135). -/
theorem nextCommand_reset {s : State} (hr : s.resetAsserted = true) : s.nextCommand = none := by
  simp [nextCommand, hr]

theorem nextCommand_none {s : State} (h : s.nextCommand = none) :
    s.resetAsserted = true ∨ (s.portP.waiting = none ∧ s.portK.waiting = none) := by
  unfold nextCommand at h
  split at h
  · exact .inl ‹_›
  · split at h
    · exact .inr ⟨‹_›, ‹_›⟩
    · cases h
    · cases h
    · split at h <;> cases h

/-- A step that runs a command, in terms of `nextCommand`. -/
theorem step_eq_exec {s s0 t : State} {c : Command}
    (ha : s.action = s0.runOr s0 ∨ (s0 = s ∧ s.action = s.runOr s.deliverAny))
    (hn : s0.nextCommand = some (c, t)) : step s = exec (decode c) t := by
  rcases ha with ha | ⟨rfl, ha⟩ <;> simp [step, ha, runOr, hn]

theorem action_nil {s : State} (h : s.schedule = []) : s.action = s.runOr s.deliverAny := by
  simp [action, h]

theorem action_cons {s : State} {e : Event} {rest : List Event} (h : s.schedule = e :: rest) :
    s.action = ({ s with schedule := rest } : State).event e := by
  simp [action, h]

/-- Which command is next does not depend on the schedule. -/
theorem nextCommand_with_schedule (s : State) (l : List Event) :
    ({ s with schedule := l } : State).nextCommand =
      s.nextCommand.map fun ct => (ct.1, { ct.2 with schedule := l }) := by
  simp only [nextCommand]
  split
  · rfl
  · have ha : ({ s with schedule := l } : State).arbiter = s.arbiter := rfl
    cases s.portP.waiting <;> cases s.portK.waiting <;> try rfl
    rw [ha]; cases s.arbiter <;> rfl

/-- The block's own move, named by the schedule or with the schedule empty: it runs the command that is next. -/
theorem step_block {s t : State} {c : Command} (hs : s.schedule = [] ∨ ∃ rest, s.schedule = .linearise :: rest)
    (hn : s.nextCommand = some (c, t)) : step s = exec (decode c) { t with schedule := s.schedule.tail } := by
  have h : ∀ l, ({ s with schedule := l } : State).nextCommand = some (c, { t with schedule := l }) := by
    intro l; rw [nextCommand_with_schedule, hn]; rfl
  rcases hs with hs | ⟨rest, hs⟩
  · have h' := h []
    have he : ({ s with schedule := [] } : State) = s := by rw [← hs]
    rw [he] at h'
    rw [hs]
    exact step_eq_exec (s0 := s) (.inr ⟨rfl, action_nil hs⟩) h'
  · have h' := h rest
    rw [hs]
    exact step_eq_exec (s0 := { s with schedule := rest }) (.inl (action_cons hs)) h'

end Sys2Proof.Machine.State
end

