-- ==== Sys2Proof/Tests/Slice0.lean ====
section
/-! SUPPORT. Tests from the spec's own words and from its vectors (95_test_vectors.md, their ids in the comments), and a
witness for the hypotheses of each obligation. -/

namespace Sys2Proof.Tests

open Sys2Proof Sys2Proof.Machine

/-! ### Words written out from the encodings of R63, R65 and R66 -/

/-- The bus value of V1 (vector D-3). -/
def v1 : Packet := 0x2500000000000000000000000000000000000520

/-- L3-1 row 1: op=000 len=0x14. -/
theorem test_decode_word_decode : decode ⟨0b000, 0b00010100, v1⟩ = .decode 20 v1 := by decide
/-- L3-1 row 2: op=001. -/
theorem test_decode_word_validate : decode ⟨0b001, 0, v1⟩ = .validate v1 := by decide
/-- L3-1 row 3: op=010; `cmd_len` is no operand of PUSH. -/
theorem test_decode_word_push : decode ⟨0b010, 0b11111111, v1⟩ = .push v1 := by decide
/-- L3-1 row 5: op=011. -/
theorem test_decode_word_pop : decode ⟨0b011, 0, 0⟩ = .pop := by decide
theorem test_decode_word_isEmpty : decode ⟨0b100, 1, v1⟩ = .isEmpty := by decide
theorem test_decode_word_isFull : decode ⟨0b101, 0, 0⟩ = .isFull := by decide
theorem test_decode_word_size : decode ⟨0b110, 0, 0⟩ = .size := by decide
theorem test_decode_word_reserved : decode ⟨0b111, 0, 0⟩ = .reserved := by decide

/-- Each row of the opcode table, as the table numbers its bits. -/
theorem test_table_words : [0, 1, 2, 3, 4, 5, 6, 7].map (decodeTableWord 8) =
    [some (.decode 0 0), some (.validate 0), some (.push 0), some .pop, some .isEmpty, some .isFull, some .size,
      some .reserved] := by decide

/-- R7: `IDX_W` and `LEN_W` of this hardware, and `IDX_W = max(1, 0)` for a queue of capacity 1. -/
theorem test_register_widths : Config.indexWidth 30 = Config.idxW ∧ Config.lengthWidth 30 = Config.lenW ∧
    Config.indexWidth 1 = 1 ∧ Config.latency ≠ 0 := ⟨by decide, by decide, by decide, Nat.succ_ne_zero _⟩

/-! ### Packets -/

/-- V1's wire bytes (vector D-3). -/
theorem test_pack_v1 : Packet.pack ([0x20, 0x05, 0x00] ++ List.replicate 16 0x00 ++ [0x25]) = v1 := by decide
/-- Vector D-5: seq = 0x1234, ptype 7, pad 2. -/
theorem test_fields_d5 : Packet.seq 0x1000000000000000000000000044332211123472 = 0x1234 ∧
    packetTypeOf (Packet.ptype 0x1000000000000000000000000044332211123472) = some .p2IrTrans ∧
    Packet.pad 0x1000000000000000000000000044332211123472 = 2 := by decide
/-- L3-2: V2's last 5 payload bytes (0C to 10) are padding. -/
theorem test_meaningful_v2 : Packet.meaningful 0x06100F0E0D0C0B0A090807060504030201010215 =
    [0x01, 0x02, 0x03, 0x04, 0x05, 0x06, 0x07, 0x08, 0x09, 0x0A, 0x0B] := by decide
/-- 95_test_vectors.md section 2.2: under SUM8, D-V2 needs 0xA0. -/
theorem test_sum8_v2 : sum8 0x06100F0E0D0C0B0A090807060504030201010215 = 0xA0 := by decide
/-- `S(29)` (L3-3). -/
theorem test_seal_s29 : sealPacket 0x20 29 (List.replicate 16 0) = 0x3D00000000000000000000000000000000001D20 := by decide

/-! ### Well-formed command lines: one line that each check refuses -/

theorem test_wf_refuses_long_length : (CommandLine.decode .P 256 (List.replicate 20 0)).wf = false := by decide
/-- L3-2 row 4: a DECODE of 21 bytes with all 21 written (log entry 20); byte 20 (0xEE) has no lane. -/
theorem test_assemble_long_chunk : assemble 0 (.decode .P 21 [0x15, 0x02, 0x01, 0x01, 0x02, 0x03, 0x04, 0x05, 0x06, 0x07,
      0x08, 0x09, 0x0A, 0x0B, 0x0C, 0x0D, 0x0E, 0x0F, 0x10, 0x06, 0xEE]) =
    some (.P, ⟨0b000, 0x15, 0x06100F0E0D0C0B0A090807060504030201010215⟩) := by decide
/-- R75: a DECODE of 19 bytes writes 19 bytes, not 20. -/
theorem test_wf_refuses_extra_bytes : (CommandLine.decode .P 19 (List.replicate 20 0)).wf = false := by decide
theorem test_wf_refuses_short_validate : (CommandLine.validate .K (List.replicate 19 0)).wf = false := by decide
theorem test_wf_refuses_long_push : (CommandLine.push .P (List.replicate 21 0)).wf = false := by decide
theorem test_wf_accepts_long_chunk : (CommandLine.decode .P 255 (List.replicate 20 0)).wf = true := by decide

/-! ### One command each, on small states -/

/-- A queue at these registers, with these slots written. -/
def queueAt (h t : Fin 30) (l : Fin 31) (slots : List (Fin 30 × Packet)) : Queue 30 Packet :=
  slots.foldl (fun q e => q.memWrite e.1 e.2) { State.reset.queue with head := h, tail := t, length := l }

/-- A state serving port `p` with this queue. -/
def stateAt (p : Port) (q : Queue 30 Packet) : State := { State.reset with queue := q, serving := p }

/-- What a command does from a state: its answer, the registers (HEAD, TAIL, LENGTH) and one slot after. -/
def result (i : Instr) (s : State) (slot : Fin 30) : Option (Option Answer × List Nat × Option Packet) :=
  match exec i s with
  | .next t =>
    some (t.answer s.serving, [t.queue.head.val, t.queue.tail.val, t.queue.length.val], t.queue.memRead slot)
  | _ => none

/-- D-2: one byte short. -/
theorem test_decode_too_short : result (.decode 19 v1) (stateAt .P (queueAt 0 0 0 [])) 0 =
    some (some ⟨.tooShort, false, none, none⟩, [0, 0, 0], none) := by decide
/-- D-6: type 9 decodes, since DECODE does not validate. -/
theorem test_decode_reserved_type :
    result (.decode 20 0x9000000000000000000000000000000000000090) (stateAt .K (queueAt 0 0 0 [])) 0 =
    some (some ⟨.ok, true, none, some 0x9000000000000000000000000000000000000090⟩, [0, 0, 0], none) := by decide
/-- D-V5: the largest known type, pad 15. -/
theorem test_validate_largest_type :
    result (.validate 0x8FAAAAAAAAAAAAAAAAAAAAAAAAAAAAAAAAFFFF8F) (stateAt .P (queueAt 0 0 0 [])) 0 =
    some (some ⟨.ok, true, none, none⟩, [0, 0, 0], none) := by decide
/-- D-V8: one data byte changed. -/
theorem test_validate_changed_byte :
    result (.validate 0x2500000000000000000000000000000001000520) (stateAt .K (queueAt 0 0 0 [])) 0 =
    some (some ⟨.validationFailure, false, none, none⟩, [0, 0, 0], none) := by decide
/-- Q7: TAIL wraps and the queue becomes full. -/
theorem test_push_wraps : result (.push v1) (stateAt .P (queueAt 0 29 29 [])) 29 =
    some (some ⟨.ok, true, none, none⟩, [0, 0, 30], some v1) := by decide
/-- Q13: a PUSH on port K. -/
theorem test_push_on_consumer_port : result (.push v1) (stateAt .K (queueAt 0 0 0 [])) 0 =
    some (some ⟨.illegalCommand, false, none, none⟩, [0, 0, 0], none) := by decide
/-- Q11: HEAD wraps forward, never backward. -/
theorem test_pop_wraps : result .pop (stateAt .K (queueAt 29 0 1 [(29, v1)])) 29 =
    some (some ⟨.ok, true, none, some v1⟩, [0, 0, 0], some v1) := by decide
/-- Q3: an empty queue answers no packet. -/
theorem test_pop_empty : result .pop (stateAt .K (queueAt 0 0 0 [(0, v1)])) 0 =
    some (some ⟨.queueEmpty, false, none, none⟩, [0, 0, 0], some v1) := by decide
/-- R102: a full queue has HEAD = TAIL and is not empty. -/
theorem test_isEmpty_full_queue : result .isEmpty (stateAt .K (queueAt 4 4 30 [])) 0 =
    some (some ⟨.ok, false, none, none⟩, [4, 4, 30], none) := by decide
/-- Q8. -/
theorem test_isFull_full_queue : result .isFull (stateAt .P (queueAt 0 0 30 [])) 0 =
    some (some ⟨.ok, true, none, none⟩, [0, 0, 30], none) := by decide
/-- Q10. -/
theorem test_size_full_queue : result .size (stateAt .K (queueAt 0 0 30 [])) 0 =
    some (some ⟨.ok, true, some 30, none⟩, [0, 0, 30], none) := by decide
/-- Q15. -/
theorem test_reserved : result .reserved (stateAt .P (queueAt 3 4 1 [(3, v1)])) 3 =
    some (some ⟨.illegalCommand, false, none, none⟩, [3, 4, 1], some v1) := by decide

/-! ### Steps -/

/-- What the next step leaves: the answer due on port `p`, and LENGTH. -/
def stepResult (s : State) (p : Port) : Option (Option Answer × Nat) :=
  match step s with
  | .next t => some (t.answer p, t.queue.length.val)
  | _ => none

/-- A placed PUSH runs as the first command after reset (log entry 2). -/
theorem test_placed_push : stepResult (State.reset.withFetchWord 8 0b010) .P =
    some (some ⟨.ok, true, none, none⟩, 1) := by decide
/-- A placed POP runs on its own port, and meets an empty queue. -/
theorem test_placed_pop : stepResult (State.reset.withFetchWord 8 0b011) .K =
    some (some ⟨.queueEmpty, false, none, none⟩, 0) := by decide
/-- L3-6: reset while a POP is outstanding; no answer is due and the queue is empty. -/
theorem test_reset_abandons_pop :
    stepResult { (stateAt .P (queueAt 0 1 1 [(0, v1)])).placed (encode .pop) with schedule := [.reset true] } .K =
    some (none, 0) := by decide

/-! ### Witnesses: states and operands that meet the hypotheses of each obligation -/

/-- One element, V1, in slot 0: (0,1,1) of L3-1. -/
def oneElement : Queue 30 Packet := queueAt 0 1 1 [(0, v1)]

theorem oneElement_consistent : oneElement.Consistent := ⟨by decide, by decide⟩
theorem oneElement_content : oneElement.content = [v1].map some := by decide

/-- A port with command `c` waiting that has lost `n` conflicts. -/
def waitingPort (c : Command) (n : Nat) : PortState := { latch := some c, result := none, losses := n, responses := [] }

/-- With this queue, a PUSH waits on P and a POP on K; K's command has lost `n` conflicts. -/
def bothWaitingOn (q : Queue 30 Packet) (n : Nat) : State :=
  { stateAt .P q with
    portP := waitingPort (encode (.push v1)) 0
    portK := waitingPort (encode .pop) n }

/-- The same with one element in the queue. -/
abbrev bothWaiting (n : Nat) : State := bothWaitingOn oneElement n

/-- (0,0,30) of A1, every slot written. -/
def fullQueue : Queue 30 Packet := { queueAt 0 0 30 [] with qstore := Vector.replicate 30 (some v1) }

theorem fullQueue_consistent : fullQueue.Consistent := ⟨by decide, by decide⟩
theorem fullQueue_content : fullQueue.content = (List.replicate 30 v1).map some := by decide

/-- A PUSH waits on P alone. -/
def pushWaiting (l : List Event) : State :=
  { stateAt .K oneElement with portP := waitingPort (encode (.push v1)) 0, schedule := l }

theorem bothWaiting_inv (n : Nat) (h : n ≤ Config.arbPatience + 1) : (bothWaiting n).Inv where
  queue := oneElement_consistent
  portP := ⟨(fun h => nomatch h), (fun h => nomatch h)⟩
  portK := ⟨(fun h => nomatch h), (fun h => nomatch h)⟩
  quiet := fun h => nomatch h
  oneLoser := .inl rfl
  fairP := Nat.zero_le _
  fairK := h

theorem witness_UnlistedSignalsAreIgnored : (⟨0b010, 1, v1⟩ : Command).op = (⟨0b010, 7, v1⟩ : Command).op ∧
    (decode ⟨0b010, 1, v1⟩).format = .cmdPkt := by decide
theorem witness_WireImageAndPacketAgree : (Packet.bytes v1).length = 20 := by decide
theorem witness_OnlyNinePacketTypesAreKnown : 9 ≤ (9 : BitVec 4).toNat ∧ packetTypeOf (Packet.ptype 0x90) = none := by
  decide
theorem witness_CommandLineCarriesItsBytes : [(1 : Byte)].length = min 1 20 ∧
    (List.replicate 21 (1 : Byte)).length = 21 ∧ (List.replicate 20 (1 : Byte)).length = min 255 20 ∧
    (CommandLine.push .K []).wf = false := by decide
theorem witness_DecodeUnpacksOrAnswersTooShort : 20 ≤ (20 : BitVec 8).toNat ∧ (19 : BitVec 8).toNat < 20 := by decide
theorem witness_DecodeUsesNoByteBeyondTwenty : (19 : BitVec 8).toNat < 20 ∧ 20 ≤ (20 : BitVec 8).toNat ∧
    20 ≤ (255 : BitVec 8).toNat ∧ 20 ≤ (List.replicate 21 (7 : Byte)).length ∧
    List.replicate 20 (7 : Byte) = (List.replicate 21 7).take 20 := by decide
theorem witness_DecodedFieldsComeFromTheChunk : 20 ≤ (Packet.bytes v1).length := by decide
/-- D-V1, D-V5 (type 8), D-V4 (type 9) and D-V7 (checksum). -/
theorem witness_ValidateChecksChecksumAndType :
    (Packet.cks v1 = xor8 v1 ∧ (Packet.ptype v1).toNat ≤ 8 ∧ (Packet.pad v1).toNat ≤ 16) ∧
    (Packet.ptype 0x8F).toNat = 8 ∧ ¬ (Packet.ptype 0x9000000000000000000000000000000000000090).toNat ≤ 8 ∧
    Packet.cks 0xDA00000000000000000000000000000000000520 ≠ xor8 0xDA00000000000000000000000000000000000520 := by decide
/-- The packet of D-V8: byte 3 of V1 changed. -/
theorem witness_OneChangedByteFailsChecksum : 3 < 20 ∧ cksOk .xor8 v1 = true ∧
    Packet.byte 0x2500000000000000000000000000000001000520 3 ≠ Packet.byte v1 3 ∧
    ∀ i, i < 20 → i ≠ 3 → Packet.byte 0x2500000000000000000000000000000001000520 i = Packet.byte v1 i := by decide
theorem witness_SealedPacketIsValidIffTypeIsKnown : (List.replicate 16 (0 : Byte)).length = 16 ∧
    ((0x8F : Byte).extractLsb' 4 4).toNat ≤ 8 ∧ ¬ ((0x90 : Byte).extractLsb' 4 4).toNat ≤ 8 := by decide
theorem witness_CodecAnswerDependsOnOperandsAlone :
    (∃ len data, Instr.decode 20 v1 = .decode len data) ∧ ∃ p, Instr.validate v1 = .validate p :=
  ⟨⟨20, v1, rfl⟩, v1, rfl⟩
theorem witness_IndexAdvancesForwardModuloCapacity : (28 : Fin 30).val + 1 < 30 ∧ (29 : Fin 30).val + 1 = 30 := by decide
theorem witness_PushAppendsUnlessFull : (stateAt .P (queueAt 0 29 29 [])).serving = .P ∧
    (stateAt .P (queueAt 0 29 29 [])).queue.length.val ≠ 30 ∧
    (stateAt .P (queueAt 0 0 30 [])).queue.length.val = 30 := by decide
theorem witness_PopReturnsOldestUnlessEmpty : (stateAt .K oneElement).serving = .K ∧
    (stateAt .K oneElement).queue.length.val ≠ 0 ∧ oneElement.memRead oneElement.head = some v1 ∧
    (stateAt .K (queueAt 0 0 0 [])).queue.length.val = 0 := by decide
theorem witness_IllegalCommandsChangeNothing :
    (∃ v, Instr.push v1 = .push v ∧ (stateAt .K oneElement).serving = .K) ∧
    (Instr.pop = .pop ∧ (stateAt .P oneElement).serving = .P) := ⟨⟨v1, rfl, rfl⟩, rfl, rfl⟩
theorem witness_OnlyPushAndPopWriteTheQueue :
    ¬ (Instr.pop = .pop ∧ (stateAt .P oneElement).serving = .K ∧ (stateAt .P oneElement).queue.length.val ≠ 0) ∧
    ¬ (∃ v, Instr.pop = .push v ∧ (stateAt .P oneElement).serving = .P ∧
      (stateAt .P oneElement).queue.length.val ≠ 30) := by
  constructor
  · decide
  · rintro ⟨v, h, -⟩; cases h
theorem witness_CapacityPushesFillTheQueue : 0 < 2 ∧ [1, 2].length = 2 := by decide
theorem witness_PopOrderIsPushOrder : oneElement.Consistent := oneElement_consistent
theorem witness_WrapAroundKeepsCountAndOrder :
    Queue.allSucceed [.push 7, .pop, .push 8] (Queue.fresh 1 Nat (by decide)) :=
  ⟨_, rfl, _, _, rfl, _, rfl, trivial⟩
theorem witness_CapacityOneQueueAlternates : (Queue.fresh 1 Nat (by decide)).length.val = 0 := rfl
theorem witness_RegisterWidthsHoldEveryValue : 0 < 1 := by decide
theorem witness_CircularQueueRefinesList : (stateAt .K oneElement).queue.Consistent ∧
    (stateAt .K oneElement).queue.content = [v1].map some := ⟨oneElement_consistent, oneElement_content⟩
theorem witness_StepKeepsInvariant : (bothWaiting 0).Inv ∧
    ∃ t, step { bothWaiting 0 with schedule := [.deliver .P] } = .next t :=
  ⟨bothWaiting_inv 0 (Nat.zero_le _), _, rfl⟩
theorem witness_StepRunsTheWaitingCommand : (pushWaiting []).resetAsserted = false ∧
    ((pushWaiting []).port .P).waiting = some (encode (.push v1)) ∧
    ((pushWaiting []).port .K).waiting = none ∧ (pushWaiting []).schedule = [] ∧
    (pushWaiting [.linearise]).schedule = .linearise :: [] := by decide
/-- The conflict of the same statement: K's command has lost more than the bound, so the arbiter picks K. -/
theorem witness_StepRunsTheArbitersChoice : (bothWaiting (Config.arbPatience + 1)).resetAsserted = false ∧
    ((bothWaiting (Config.arbPatience + 1)).port .K).waiting = some (encode .pop) ∧
    ((bothWaiting (Config.arbPatience + 1)).port .P).waiting.isSome = true ∧
    (bothWaiting (Config.arbPatience + 1)).arbiter = .K ∧ (bothWaiting (Config.arbPatience + 1)).schedule = [] :=
  ⟨rfl, rfl, rfl, if_pos (Nat.lt_succ_self _), rfl⟩
/-- A response due on port P. -/
def due : Response := ⟨.ok, true, .unspec 0, .unspec 0⟩
theorem witness_DeliverPresentsOneResponse :
    let s := { pushWaiting [.deliver .P] with
      portP := { latch := some (encode .pop), result := some due, losses := 0, responses := [] } }
    s.resetAsserted = false ∧ s.schedule = .deliver .P :: [] ∧ (s.port .P).result = some due := by decide
theorem witness_ConflictServesOneAndKeepsTheOther : (bothWaiting Config.arbPatience).resetAsserted = false ∧
    (bothWaiting Config.arbPatience).schedule = [] ∧
    (∃ rest, ({ bothWaiting Config.arbPatience with schedule := [.linearise, .deliver .P] } : State).schedule =
      .linearise :: rest) ∧
    (bothWaiting Config.arbPatience).portP.waiting = some (encode (.push v1)) ∧
    (bothWaiting Config.arbPatience).portK.waiting = some (encode .pop) ∧
    (bothWaiting Config.arbPatience).portP.losses ≤ Config.arbPatience ∧
    (bothWaiting Config.arbPatience).portK.losses ≤ Config.arbPatience :=
  ⟨rfl, rfl, ⟨_, rfl⟩, rfl, rfl, Nat.zero_le _, Nat.le_refl _⟩
theorem witness_StarvedCommandIsServedNext : (bothWaiting (Config.arbPatience + 1)).Inv ∧
    (bothWaiting (Config.arbPatience + 1)).resetAsserted = false ∧
    ((bothWaiting (Config.arbPatience + 1)).port .K).waiting = some (encode .pop) ∧
    Config.arbPatience < ((bothWaiting (Config.arbPatience + 1)).port .K).losses :=
  ⟨bothWaiting_inv _ (Nat.le_refl _), rfl, rfl, Nat.lt_succ_self _⟩
/-- The three rows of R125: LENGTH 0, 1 and C; the block's moves come from an empty schedule or are named in it. -/
theorem witness_PushAndPopTogetherGiveOneOfTwoOutcomes :
    ∀ e ∈ [(State.reset.queue, []), (oneElement, [v1]), (fullQueue, List.replicate 30 v1)],
      let s := bothWaitingOn e.1 0
      s.queue.Consistent ∧ s.queue.content = e.2.map some ∧ s.resetAsserted = false ∧ s.schedule = [] ∧
      (∃ rest, ({ s with schedule := [.linearise, .linearise, .deliver .K] } : State).schedule =
        .linearise :: .linearise :: rest) ∧
      s.portP.waiting = some (encode (.push v1)) ∧ s.portK.waiting = some (encode .pop) := by
  have reset_consistent : State.reset.queue.Consistent := ⟨by decide, by decide⟩
  simp only [List.forall_mem_cons]
  exact ⟨⟨reset_consistent, rfl, rfl, rfl, ⟨_, rfl⟩, rfl, rfl⟩,
    ⟨oneElement_consistent, oneElement_content, rfl, rfl, ⟨_, rfl⟩, rfl, rfl⟩,
    ⟨fullQueue_consistent, fullQueue_content, rfl, rfl, ⟨_, rfl⟩, rfl, rfl⟩, by simp⟩
theorem witness_ResetEmptiesQueueAndAbandonsCommands :
    (pushWaiting [.reset true]).schedule = .reset true :: [] := rfl
theorem witness_AssertedResetBlocksBothPorts :
    ({ State.reset with resetAsserted := true, schedule := [.linearise] } : State).resetAsserted = true ∧
    (∃ p c, Event.present .P (encode .pop) = .present p c) ∧ (∃ p, Event.deliver .K = .deliver p) ∧
    ({ State.reset with resetAsserted := true } : State).schedule = [] :=
  ⟨rfl, ⟨_, _, rfl⟩, ⟨_, rfl⟩, rfl⟩
/-- Each of the five clauses, on both sides of the equivalence; `due` has an UNSPEC size. -/
theorem witness_OnlyBreachesOfDutyAreRefused :
    step (pushWaiting [.present .P (encode .size)]) = .refused (.secondCommand .P) ∧
    ((pushWaiting [.present .P (encode .size)]).port .P).latch.isSome = true ∧
    step (pushWaiting [.drive .P none]) = .refused (.operandsChanged .P) ∧
    ((pushWaiting [.drive .P none]).port .P).latch = some (encode (.push v1)) ∧
    step { pushWaiting [.read .K .size] with portK := { PortState.reset with responses := [due] } } =
      .refused (.unspecRead .K .size) ∧ due.answer.size = none ∧
    step (pushWaiting [.read .K .flag]) = .refused (.noResponse .K .flag) ∧
    step (pushWaiting [.powerLoss]) = .refused .powerLost := ⟨rfl, rfl, rfl, rfl, rfl, rfl, rfl, rfl⟩
theorem witness_OutstandingCommandsAreAnswered : (bothWaiting 0).Inv ∧ (bothWaiting 0).resetAsserted = false ∧
    (bothWaiting 0).schedule = [] := ⟨bothWaiting_inv 0 (Nat.zero_le _), rfl, rfl⟩
theorem witness_ThreeStepsMakeOneTransaction : (stateAt .P oneElement).resetAsserted = false ∧
    (stateAt .P oneElement).portP.Free ∧ (stateAt .P oneElement).portK.Free := by decide
theorem witness_RoomSeenByProducerStays : (stateAt .P (queueAt 0 29 29 [])).queue.length.val < 30 := by decide
theorem witness_ElementSeenByConsumerStays : 0 < (stateAt .K oneElement).queue.length.val := by decide
/-- Slot 5 lies outside the window and holds a stale packet in one of the two states. -/
theorem witness_StaleSlotsAreUnobservable : (stateAt .K oneElement).queue.Consistent ∧
    SameButStale (stateAt .K oneElement) (stateAt .K (oneElement.memWrite 5 v1)) :=
  ⟨oneElement_consistent, ⟨by decide, by decide, by decide, by decide⟩, rfl⟩
theorem witness_IngestQueuesTheDecodedPacket : (stateAt .P oneElement).queue.Consistent ∧
    (stateAt .P oneElement).queue.content = [v1].map some := ⟨oneElement_consistent, oneElement_content⟩
theorem witness_ConsumeDeliversTheOldestPacket : (stateAt .K oneElement).queue.Consistent ∧
    (stateAt .K oneElement).queue.content = [v1].map some := ⟨oneElement_consistent, oneElement_content⟩
/-- P's response is due and was passed `n` times; K's POP waits. -/
def dueAndWaiting (n : Nat) : State :=
  { stateAt .P oneElement with
    portP := { waitingPort (encode (.push v1)) n with result := some due }
    portK := waitingPort (encode .pop) 0 }
/-- Both clauses, each at the bound. -/
theorem witness_OverdueResponseIsPresented :
    (∀ n, (dueAndWaiting n).resetAsserted = false ∧ (dueAndWaiting n).schedule = [] ∧
      ((dueAndWaiting n).port .K).waiting = some (encode .pop) ∧
      ((dueAndWaiting n).port Port.K.other).result = some due) ∧
    Config.arbPatience < ((dueAndWaiting (Config.arbPatience + 1)).port Port.K.other).losses ∧
    ((dueAndWaiting Config.arbPatience).port Port.K.other).losses ≤ Config.arbPatience :=
  ⟨fun _ => ⟨rfl, rfl, rfl, rfl⟩, Nat.lt_succ_self _, Nat.le_refl _⟩
theorem dueAndWaiting_inv (n : Nat) (h : n ≤ Config.arbPatience + 1) : (dueAndWaiting n).Inv where
  queue := oneElement_consistent
  portP := ⟨(fun _ => rfl), (fun h => nomatch h)⟩
  portK := ⟨(fun h => nomatch h), (fun h => nomatch h)⟩
  quiet := fun h => nomatch h
  oneLoser := .inr rfl
  fairP := h
  fairK := Nat.zero_le _
/-- K's command is linearised and P's response, within the bound, stays due. -/
theorem witness_NoPortStarvesTheOther : (dueAndWaiting 0).Inv ∧ (dueAndWaiting 0).resetAsserted = false ∧
    (∀ b, Event.reset b ∉ (dueAndWaiting 0).schedule) ∧ ((dueAndWaiting 0).port .P).latch.isSome = true ∧
    ∃ t, core.run 1 (dueAndWaiting 0) = .next t ∧
      (t.port .P).responses.length = ((dueAndWaiting 0).port .P).responses.length := by
  obtain ⟨t, hs, hr⟩ : ∃ t, step (dueAndWaiting 0) = .next t ∧ t.portP.responses = [] := by
    refine ⟨_, rfl, ?_⟩
    show (PortState.passedOver _).responses = []
    rw [PortState.passedOver_of_due rfl (Nat.zero_le _)]; rfl
  have hrun : core.run 1 (dueAndWaiting 0) = .next t := by simp [Host.Core.run, core, hs]
  exact ⟨dueAndWaiting_inv 0 (Nat.zero_le _), rfl, by simp [dueAndWaiting, stateAt, State.reset], rfl, t, hrun,
    congrArg List.length hr⟩
theorem witness_ReleasedResetOpensBothPorts :
    let s := { State.reset with
      resetAsserted := true, schedule := [.reset false, .present .K (encode .pop)] }
    s.schedule = .reset false :: [.present .K (encode .pop)] ∧ (s.port .K).latch = none := ⟨rfl, rfl⟩
/-- K presents while P's command is outstanding; and both ports free. -/
theorem witness_PresentedCommandIsLatched :
    let s := pushWaiting [.present .K (encode .pop)]
    let u := { State.reset with schedule := [.present .P (encode (.push v1)), .present .K (encode .pop)] }
    s.resetAsserted = false ∧ (s.port .K).latch = none ∧ s.schedule = .present .K (encode .pop) :: [] ∧
    u.resetAsserted = false ∧ (u.port .P).Free ∧ (u.port Port.P.other).Free ∧
    u.schedule = .present .P (encode (.push v1)) :: .present Port.P.other (encode .pop) :: [] :=
  ⟨rfl, rfl, rfl, rfl, ⟨rfl, rfl, rfl⟩, ⟨rfl, rfl, rfl⟩, rfl⟩
/-- P holds its PUSH stable; K drives nothing; K reads a size and a data field that are given, and a status. -/
theorem witness_AllowedHostMovesChangeNothing :
    ((pushWaiting [.drive .P (some (encode (.push v1)))]).port .P).latch = some (encode (.push v1)) ∧
    ((pushWaiting [.drive .K none]).port .K).latch = none ∧
    (⟨.ok, true, .value 30, .value v1⟩ : Response).answer.size.isSome = true ∧
    (⟨.ok, true, .value 30, .value v1⟩ : Response).answer.data.isSome = true ∧
    (Field.status = .size → due.answer.size.isSome = true) ∧ (Field.status = .data → due.answer.data.isSome = true) :=
  ⟨rfl, rfl, rfl, rfl, (fun h => nomatch h), (fun h => nomatch h)⟩

end Sys2Proof.Tests
end

section
/-! The state family (10_state.md): what the codec reads and writes, and what reset leaves. -/

namespace Sys2Proof.Machine

/-- The packet codec is a function of its operands: one answer serves every state, and only the response is written
(R28, R79). -/
theorem exec_codec_answer {i : Instr} (hi : (∃ len data, i = .decode len data) ∨ ∃ p, i = .validate p) :
    ∃ a : Answer, ∀ s : State, exec i s = .next (s.respond a.status a.flag a.size a.data) := by
  obtain ⟨len, data, rfl⟩ | ⟨p, rfl⟩ := hi
  · cases hu : unpack len data with
    | none => exact ⟨⟨.tooShort, false, none, none⟩, fun s => by simp [exec, execDecode, hu, State.raise_eq]⟩
    | some p => exact ⟨⟨.ok, true, none, some p⟩, fun s => by simp [exec, execDecode, hu]⟩
  · by_cases hv : validUnder Config.checksum p = true
    · exact ⟨⟨.ok, true, none, none⟩, fun s => by simp [exec, execValidate, hv]⟩
    · exact ⟨⟨.validationFailure, false, none, none⟩, fun s => by simp [exec, execValidate, hv, State.raise_eq]⟩

/-- IS_EMPTY completes with `rsp_flag` telling whether LENGTH is 0 (R102). -/
theorem exec_isEmpty (s : State) : exec .isEmpty s = .next (s.respond .ok s.queue.isEmpty none none) := rfl

/-- At reset the queue is the fresh one of this hardware's capacity (R35). -/
theorem reset_queue_eq_fresh : State.reset.queue = Queue.fresh Config.capacity Packet (by decide) := rfl

/-- Settles O19: the answer of `exec_codec_answer` is the same in both states, and a response leaves the queue alone. -/
theorem codecAnswerDependsOnOperandsAlone : Obligations.CodecAnswerDependsOnOperandsAlone := by
  intro i s u hi
  obtain ⟨a, ha⟩ := exec_codec_answer hi
  refine ⟨_, _, ha s, ha u, ?_, State.respond_queue .., State.respond_queue ..⟩
  rw [State.answer_respond, State.answer_respond]

/-- Settles O37: the registers and latches have their reset values by definition, the content is that of a fresh queue,
and IS_EMPTY then answers 1 on whichever port is served. -/
theorem resetLeavesAnEmptyQueue : Obligations.ResetLeavesAnEmptyQueue := by
  have hcontent : State.reset.queue.content = [] := reset_queue_eq_fresh ▸ Queue.content_fresh _
  have hempty : State.reset.queue.isEmpty = true := rfl
  refine ⟨rfl, rfl, rfl, rfl, rfl, hcontent, fun p => ⟨_, exec_isEmpty _, ?_⟩⟩
  rw [State.answer_respond_on rfl, hempty]

end Sys2Proof.Machine
end

section
/-! The encoding family (30_encoding.md): the opcode map and the formats, where a packet's fields lie, and the status
and the flag each command completes with. -/

namespace Sys2Proof

/-! ### The opcode map -/

/-- The eight values of `cmd_op` (R66). -/
theorem opcode_cases (op : BitVec 3) :
    op = 0b000#3 ∨ op = 0b001#3 ∨ op = 0b010#3 ∨ op = 0b011#3 ∨ op = 0b100#3 ∨ op = 0b101#3 ∨ op = 0b110#3 ∨
      op = 0b111#3 := by
  revert op; decide

/-- Settles O1: each opcode is an arm of the decoder, and each command has its row's mnemonic and format. -/
theorem opcodeMapSelectsOneRow : Obligations.OpcodeMapSelectsOneRow :=
  fun _ _ => ⟨rfl, rfl, rfl, rfl, rfl, rfl, rfl, rfl, rfl, rfl⟩

/-- Settles O2: by the value of the opcode; the decoded command carries just the signals that its format lists. -/
theorem unlistedSignalsAreIgnored : Obligations.UnlistedSignalsAreIgnored := by
  rintro ⟨op, len, data⟩ ⟨_, len', data'⟩ rfl
  obtain rfl | rfl | rfl | rfl | rfl | rfl | rfl | rfl := opcode_cases op
  · exact ⟨rfl, fun hlen hdata => congrArg₂ Instr.decode hlen hdata⟩
  · exact ⟨rfl, fun hdata => congrArg Instr.validate hdata⟩
  · exact ⟨rfl, fun hdata => congrArg Instr.push hdata⟩
  all_goals exact ⟨rfl, rfl⟩

/-! ### Where a packet's fields lie -/

namespace Packet

/-- A part of a part of a bit vector is a part of the whole. -/
theorem extractLsb'_extractLsb'_of_add_le {w start len start' len' : Nat} (x : BitVec w) (h : start' + len' ≤ len) :
    (x.extractLsb' start len).extractLsb' start' len' = x.extractLsb' (start + start') len' := by
  apply BitVec.eq_of_getLsbD_eq
  intro k hk
  have : start' + k < len := by omega
  simp [hk, this, Nat.add_assoc]

@[simp] theorem length_bytes (p : Packet) : (bytes p).length = 20 := by simp [bytes]

theorem ptype_eq_high_nibble (p : Packet) : ptype p = (byte p 0).extractLsb' 4 4 :=
  (extractLsb'_extractLsb'_of_add_le (start := 0) (len := 8) (start' := 4) (len' := 4) p (by decide)).symm

theorem pad_eq_low_nibble (p : Packet) : pad p = (byte p 0).extractLsb' 0 4 :=
  (extractLsb'_extractLsb'_of_add_le (start := 0) (len := 8) (start' := 0) (len' := 4) p (by decide)).symm

/-- The sequence number lies in bytes 1 and 2, low byte first (R53). -/
theorem seq_eq_append (p : Packet) : seq p = byte p 2 ++ byte p 1 :=
  (BitVec.extractLsb'_append_extractLsb'_eq_extractLsb' (w := 160) (len₁ := 8) (len₂ := 8) (start₂ := 16)
    (start₁ := 8) rfl).symm

theorem data_eq_byte (p : Packet) (j : Nat) : data p j = byte p (3 + j) := by
  have : 8 * j + 24 = 8 * (3 + j) := by omega
  simp [data, byte, this]

theorem payload_extract (p : Packet) {j : Nat} (hj : j < 16) : (payload p).extractLsb' (8 * j) 8 = data p j := by
  rw [payload, extractLsb'_extractLsb'_of_add_le p (by omega), Nat.add_comm, data]

/-- The five fields, from the highest bit down, are the whole packet value (R54). -/
theorem eq_append_fields (p : Packet) : p = cks p ++ payload p ++ seq p ++ ptype p ++ pad p := by
  have hpayload : cks p ++ payload p = p.extractLsb' 24 136 :=
    BitVec.extractLsb'_append_extractLsb'_eq_extractLsb' rfl
  have hseq : p.extractLsb' 24 136 ++ seq p = p.extractLsb' 8 152 :=
    BitVec.extractLsb'_append_extractLsb'_eq_extractLsb' rfl
  have hptype : p.extractLsb' 8 152 ++ ptype p = p.extractLsb' 4 156 :=
    BitVec.extractLsb'_append_extractLsb'_eq_extractLsb' rfl
  have hpad : p.extractLsb' 4 156 ++ pad p = p.extractLsb' 0 160 :=
    BitVec.extractLsb'_append_extractLsb'_eq_extractLsb' rfl
  rw [hpayload, hseq, hptype, hpad, BitVec.extractLsb'_eq_self]

end Packet

/-- Settles O6: each field is the part of the value where its byte lies, and the fields adjoin. -/
theorem packetFieldsLieAtTheirBytes : Obligations.PacketFieldsLieAtTheirBytes := by
  intro p
  exact ⟨Packet.length_bytes p, rfl, Packet.ptype_eq_high_nibble p, Packet.pad_eq_low_nibble p, Packet.seq_eq_append p,
    fun j hj => ⟨Packet.data_eq_byte p j, Packet.payload_extract p hj⟩, rfl, Packet.eq_append_fields p⟩

end Sys2Proof

/-! ### Status and flag -/

namespace Sys2Proof.Machine

namespace Queue

variable {C : Nat} {T : Type}

@[simp] theorem isEmpty_iff (q : Queue C T) : q.isEmpty = true ↔ q.length.val = 0 := decide_eq_true_iff

@[simp] theorem isFull_iff (q : Queue C T) : q.isFull = true ↔ q.length.val = C := decide_eq_true_iff

end Queue

/-- The padding check never refuses a packet (R89): VALIDATE refuses by the checksum or by the type. -/
theorem validUnder_checksum_eq_false (p : Packet) :
    validUnder Config.checksum p = false ↔ Packet.cks p ≠ xor8 p ∨ 8 < (Packet.ptype p).toNat := by
  have hpad : (Packet.pad p).toNat ≤ 16 := Nat.le_of_lt (Packet.pad p).isLt
  simp [validUnder, cksOk, typeOk, padOk, checksumOf, Config.checksum, hpad, ← imp_iff_not_or]

theorem Port_ne_K {p : Port} : ¬ p = .K ↔ p = .P := by cases p <;> decide

theorem Port_ne_P {p : Port} : ¬ p = .P ↔ p = .K := by cases p <;> decide

/-- The status with which a command fails, none when it succeeds: the cause of each failure status (R72), with the port's
legality first (R115). `exec_completes` says that the model fails so. -/
def failure (s : State) : Instr → Option Status
  | .decode len _ => if len.toNat < 20 then some .tooShort else none
  | .validate p => if validUnder Config.checksum p then none else some .validationFailure
  | .push _ => if s.serving = .K then some .illegalCommand else if s.queue.isFull then some .queueFull else none
  | .pop => if s.serving = .P then some .illegalCommand else if s.queue.isEmpty then some .queueEmpty else none
  | .isEmpty => none
  | .isFull => none
  | .size => none
  | .reserved => some .illegalCommand

/-- The flag of a command that succeeds (R71). `exec_completes` says that the model answers it. -/
def successFlag (s : State) : Instr → Bool
  | .isEmpty => s.queue.isEmpty
  | .isFull => s.queue.isFull
  | _ => true

/-- How a command completes: it raises its failure status, or answers OK with its flag. -/
theorem exec_completes (i : Instr) (s : State) :
    (∃ st, failure s i = some st ∧ exec i s = .next (s.raise st)) ∨
    (failure s i = none ∧ ∃ (q : Queue Config.capacity Packet) (sz : Option (BitVec Config.lenW)) (d : Option Packet),
      exec i s = .next (({ s with queue := q } : State).respond .ok (successFlag s i) sz d)) := by
  cases i with
  | decode len data =>
    by_cases h : len.toNat < 20
    · exact .inl ⟨.tooShort, by simp [failure, h], by simp [exec, execDecode, unpack, h]⟩
    · exact .inr ⟨by simp [failure, h], s.queue, none, some data, by simp [exec, execDecode, unpack, h, successFlag]⟩
  | validate p =>
    by_cases h : validUnder Config.checksum p = true
    · exact .inr ⟨by simp [failure, h], s.queue, none, none, by simp [exec, execValidate, h, successFlag]⟩
    · exact .inl ⟨.validationFailure, by simp [failure, h], by simp [exec, execValidate, h]⟩
  | push v =>
    cases hp : s.serving with
    | K => exact .inl ⟨.illegalCommand, by simp [failure, hp], by simp [exec, execPush, legalOn, hp, State.illegal]⟩
    | P =>
      cases hq : s.queue.push v with
      | none => exact .inl ⟨.queueFull, by simp [failure, hp, Queue.push_eq_none.1 hq],
          by simp [exec, execPush, legalOn, hp, hq]⟩
      | some q => exact .inr ⟨by simp [failure, hp, Nat.ne_of_lt (Queue.push_eq_some hq).1], q, none, none,
          by simp [exec, execPush, legalOn, hp, hq, successFlag]⟩
  | pop =>
    cases hp : s.serving with
    | P => exact .inl ⟨.illegalCommand, by simp [failure, hp], by simp [exec, execPop, legalOn, hp, State.illegal]⟩
    | K =>
      cases hq : s.queue.pop with
      | none => exact .inl ⟨.queueEmpty, by simp [failure, hp, Queue.pop_eq_none.1 hq],
          by simp [exec, execPop, legalOn, hp, hq]⟩
      | some vq => exact .inr ⟨by simp [failure, hp, Nat.ne_of_gt (Queue.pop_eq_some hq).1], vq.2, none,
          some (s.element vq.1), by simp [exec, execPop, legalOn, hp, hq, successFlag]⟩
  | isEmpty => exact .inr ⟨rfl, s.queue, none, none, rfl⟩
  | isFull => exact .inr ⟨rfl, s.queue, none, none, rfl⟩
  | size => exact .inr ⟨rfl, s.queue, some (sizeField s.queue), none, rfl⟩
  | reserved => exact .inl ⟨.illegalCommand, rfl, rfl⟩

section
variable (s : State) (i : Instr)

/-- OK is no failure. -/
theorem failure_ne_ok : failure s i ≠ some .ok := by
  fun_cases failure s i <;> simp

theorem failure_eq_tooShort : failure s i = some .tooShort ↔ ∃ len data, i = .decode len data ∧ len.toNat < 20 := by
  fun_cases failure s i <;> simp [*]

theorem failure_eq_validationFailure : failure s i = some .validationFailure ↔
    ∃ p, i = .validate p ∧ (Packet.cks p ≠ xor8 p ∨ 8 < (Packet.ptype p).toNat) := by
  fun_cases failure s i <;> simp [*, ← validUnder_checksum_eq_false]

theorem failure_eq_queueFull : failure s i = some .queueFull ↔
    ∃ v, i = .push v ∧ s.serving = .P ∧ s.queue.length.val = 30 := by
  fun_cases failure s i <;> simp_all [Port_ne_K]

theorem failure_eq_queueEmpty : failure s i = some .queueEmpty ↔
    i = .pop ∧ s.serving = .K ∧ s.queue.length.val = 0 := by
  fun_cases failure s i <;> simp_all [Port_ne_P]

theorem failure_eq_illegalCommand : failure s i = some .illegalCommand ↔
    i = .reserved ∨ (∃ v, i = .push v ∧ s.serving = .K) ∨ (i = .pop ∧ s.serving = .P) := by
  fun_cases failure s i <;> simp [*]

end

/-- Every command completes with the status that `failure` gives, OK when it gives none. -/
theorem exec_status (i : Instr) (s : State) : ∃ t a, exec i s = .next t ∧ t.answer s.serving = some a ∧
    (∀ st, st ≠ .ok → (a.status = st ↔ failure s i = some st)) ∧
    (a.status ≠ .ok → a = ⟨a.status, false, none, none⟩ ∧ OnlyAnswers s t ∧ t.queue = s.queue) := by
  obtain ⟨st, hf, he⟩ | ⟨hf, q, sz, d, he⟩ := exec_completes i s
  · exact ⟨_, _, he, State.answer_respond .., by simp [hf], fun _ =>
      ⟨rfl, State.onlyAnswers_respond s s.queue st false none none, State.respond_queue ..⟩⟩
  · exact ⟨_, _, he, State.answer_respond .., by simp +contextual [hf, eq_comm], fun h => absurd rfl h⟩

/-- Codes 6 and 7 are those of no status (R72). -/
theorem code_lt_six (st : Status) : st.code.toNat < 6 := by cases st <;> decide

/-- Settles O28: the codes by evaluation; each cause is the one `failure` gives its status. -/
theorem eachStatusHasItsCodeAndCause : Obligations.EachStatusHasItsCodeAndCause := by
  refine ⟨rfl, fun i s => ?_⟩
  obtain ⟨t, a, he, ha, hstatus, hfail⟩ := exec_status i s
  exact ⟨t, a, he, ha, (hstatus .tooShort nofun).trans (failure_eq_tooShort s i),
    (hstatus .validationFailure nofun).trans (failure_eq_validationFailure s i),
    (hstatus .queueFull nofun).trans (failure_eq_queueFull s i),
    (hstatus .queueEmpty nofun).trans (failure_eq_queueEmpty s i),
    (hstatus .illegalCommand nofun).trans (failure_eq_illegalCommand s i), code_lt_six a.status, hfail⟩

/-- Settles O27: a failure has flag 0 and is none of IS_EMPTY and IS_FULL; a success has its own flag. -/
theorem flagIsTheCommandsBooleanResult : Obligations.FlagIsTheCommandsBooleanResult := by
  intro i s
  obtain ⟨st, hf, he⟩ | ⟨hf, q, sz, d, he⟩ := exec_completes i s
  · have hst : st ≠ .ok := fun h => failure_ne_ok s i (h ▸ hf)
    refine ⟨_, _, he, State.answer_respond .., ?_, ?_, fun _ _ => by simp [hst]⟩
    · rintro rfl; cases hf
    · rintro rfl; cases hf
  · refine ⟨_, _, he, State.answer_respond .., ?_, ?_, ?_⟩
    · rintro rfl; exact Queue.isEmpty_iff s.queue
    · rintro rfl; exact Queue.isFull_iff s.queue
    · intro hempty hfull
      simp [successFlag]

end Sys2Proof.Machine
end

section
/-! The codec family (40_codec.md): the operands a raw chunk is presented with, and how DECODE and VALIDATE complete. -/

namespace Sys2Proof

/-! ### A raw chunk as operands -/

/-- Lane `i` carries the chunk's byte `i` where the chunk reaches it (R69). -/
theorem byte_chunkLanes (raw : List Byte) (idle : Packet) {i : Nat} (hi : i < 20) :
    Packet.byte (chunkLanes raw idle) i = (raw[i]?).getD (Packet.byte idle i) := by
  simp [chunkLanes, Packet.byte_pack _ i hi, hi]

/-- A chunk that fills the lanes leaves none to `idle` (R80). -/
theorem chunkLanes_eq_pack_take {raw : List Byte} (idle : Packet) (h : 20 ≤ raw.length) :
    chunkLanes raw idle = Packet.pack (raw.take 20) := by
  refine Packet.eq_of_byte_eq fun i hi => ?_
  have hraw : i < raw.length := by omega
  simp [byte_chunkLanes raw idle hi, Packet.byte_pack _ i hi, hi, hraw]

@[simp] theorem chunkLen_toNat (raw : List Byte) : (chunkLen raw).toNat = min raw.length 255 := by
  have : min raw.length 255 < 256 := by omega
  simp [chunkLen, Nat.mod_eq_of_lt this]

/-- Saturating `cmd_len` at 255 keeps the comparison with 20 (R69). -/
theorem twenty_le_chunkLen (raw : List Byte) : 20 ≤ (chunkLen raw).toNat ↔ 20 ≤ raw.length := by
  rw [chunkLen_toNat]; omega

end Sys2Proof

namespace Sys2Proof.Machine

/-- A command that only responds: the frame and the answer its statement asks for. -/
theorem only_responds {i : Instr} {s : State} {st : Status} {f : Bool} {sz : Option (BitVec Config.lenW)}
    {d : Option Packet} (h : exec i s = .next (s.respond st f sz d)) :
    ∃ t, exec i s = .next t ∧ OnlyAnswers s t ∧ t.queue = s.queue ∧ t.answer s.serving = some ⟨st, f, sz, d⟩ :=
  ⟨_, h, State.onlyAnswers_respond s s.queue st f sz d, State.respond_queue .., State.answer_respond ..⟩

/-! ### DECODE -/

theorem exec_decode_of_long {len : BitVec 8} (data : BitVec 160) (s : State) (h : 20 ≤ len.toNat) :
    exec (.decode len data) s = .next (s.respond .ok true none (some data)) := by
  simp [exec, execDecode, unpack, Nat.not_lt.2 h]

theorem exec_decode_of_short {len : BitVec 8} (data : BitVec 160) (s : State) (h : len.toNat < 20) :
    exec (.decode len data) s = .next (s.respond .tooShort false none none) := by
  simp [exec, execDecode, unpack, h, State.raise_eq]

/-- DECODE of a raw chunk of 20 bytes or more answers its packed first 20 bytes (R80). -/
theorem exec_decode_long_chunk {raw : List Byte} (idle : Packet) (s : State) (h : 20 ≤ raw.length) :
    exec (.decode (chunkLen raw) (chunkLanes raw idle)) s =
      .next (s.respond .ok true none (some (Packet.pack (raw.take 20)))) := by
  rw [exec_decode_of_long _ s ((twenty_le_chunkLen raw).2 h), chunkLanes_eq_pack_take idle h]

/-- Settles O10: by whether `cmd_len` reaches 20, which for a raw chunk is whether its length does. -/
theorem decodeUnpacksOrAnswersTooShort : Obligations.DecodeUnpacksOrAnswersTooShort := by
  refine fun len data s => ⟨rfl, fun h => only_responds (exec_decode_of_long data s h),
    fun h => only_responds (exec_decode_of_short data s h), fun raw idle => ?_⟩
  by_cases h : raw.length < 20
  · have hlen : (chunkLen raw).toNat < 20 := Nat.not_le.1 (mt (twenty_le_chunkLen raw).1 (Nat.not_le.2 h))
    rw [if_pos h]
    exact ⟨_, exec_decode_of_short _ s hlen, State.answer_respond ..⟩
  · rw [if_neg h]
    exact ⟨_, exec_decode_long_chunk idle s (Nat.not_lt.1 h), State.answer_respond ..⟩

/-- Settles O11: the answer to a short chunk names no lane, the answer to a long one names the lanes alone, and the first
20 bytes of a chunk are their own first 20 bytes. -/
theorem decodeUsesNoByteBeyondTwenty : Obligations.DecodeUsesNoByteBeyondTwenty := by
  refine ⟨fun len d e s h => ?_, fun len len' d s h h' => ?_, ?_⟩
  · rw [exec_decode_of_short d s h, exec_decode_of_short e s h]
  · rw [exec_decode_of_long d s h, exec_decode_of_long d s h']
  · rintro raw _ idle idle' s h rfl
    have htake : 20 ≤ (raw.take 20).length := by simp [h]
    rw [exec_decode_long_chunk idle s h, exec_decode_long_chunk idle' s htake, List.take_take, Nat.min_self]

/-! ### The checksum -/

/-- Adding bytes one by one, modulo 256, is their sum modulo 256. -/
theorem foldl_add_toNat (l : List Byte) (a : Byte) :
    (l.foldl (· + ·) a).toNat = (a.toNat + (l.map BitVec.toNat).sum) % 256 := by
  induction l generalizing a with
  | nil => simp [Nat.mod_eq_of_lt a.isLt]
  | cons b rest ih => simp [ih, Nat.add_assoc]

/-- Settles O14: XOR8 is the checksum by definition, its fold is written out over the 19 bytes; SUM8 adds them. -/
theorem checksumIsXorOfFirstNineteenBytes : Obligations.ChecksumIsXorOfFirstNineteenBytes := by
  intro p
  constructor
  · have hxor : checksumOf Config.checksum p = (covered p).foldl (· ^^^ ·) 0 := rfl
    rw [hxor]
    simp [covered, List.range_succ]
  · rw [checksumOf, sum8, foldl_add_toNat, covered, List.map_map]
    simp [Function.comp_def]

/-! ### VALIDATE -/

/-- The verdict under this hardware's checksum is the conjunction of the three checks (R83). -/
theorem validUnder_checksum_iff (p : Packet) : validUnder Config.checksum p = true ↔
    Packet.cks p = xor8 p ∧ (Packet.ptype p).toNat ≤ 8 ∧ (Packet.pad p).toNat ≤ 16 := by
  simp [validUnder, cksOk, typeOk, padOk, checksumOf, Config.checksum, and_assoc]

theorem exec_validate_of_valid {p : Packet} (s : State) (h : validUnder Config.checksum p = true) :
    exec (.validate p) s = .next (s.respond .ok true none none) := by
  simp [exec, execValidate, h]

theorem exec_validate_of_invalid {p : Packet} (s : State) (h : ¬ validUnder Config.checksum p = true) :
    exec (.validate p) s = .next (s.respond .validationFailure false none none) := by
  simp [exec, execValidate, h, State.raise_eq]

/-- Settles O15: the three checks together are the verdict, and each verdict has its response. -/
theorem validateChecksChecksumAndType : Obligations.ValidateChecksChecksumAndType := by
  intro p s
  rw [← validUnder_checksum_iff p]
  exact ⟨fun _ => rfl, fun h => only_responds (exec_validate_of_valid s h),
    fun h => only_responds (exec_validate_of_invalid s h)⟩

end Sys2Proof.Machine
end

section
/-! The queue family (41_queue.md): how each command of the queue completes, and how the indices move. -/

namespace Sys2Proof.Machine

/-! ### Equations of `exec` -/

/-- A command that fails only responds, with its failure status and nothing else (R13). -/
theorem exec_of_failure {i : Instr} {s : State} {st : Status} (h : failure s i = some st) :
    exec i s = .next (s.respond st false none none) := by
  obtain ⟨st', hf, he⟩ | ⟨hf, -⟩ := exec_completes i s
  · obtain rfl : st = st' := Option.some.inj (h.symm.trans hf)
    exact he
  · rw [h] at hf; cases hf

/-- PUSH on port P, when the queue takes the element (R97). -/
theorem exec_push_of_some {s : State} {v : Packet} {q : Queue Config.capacity Packet} (hp : s.serving = .P)
    (hq : s.queue.push v = some q) :
    exec (.push v) s = .next (({ s with queue := q } : State).respond .ok true none none) := by
  simp [exec, execPush, legalOn, hp, hq]

/-- POP on port K, when the queue gives an element (R99). -/
theorem exec_pop_of_some {s : State} {v : Option Packet} {q : Queue Config.capacity Packet} (hp : s.serving = .K)
    (hq : s.queue.pop = some (v, q)) :
    exec .pop s = .next (({ s with queue := q } : State).respond .ok true none (some (s.element v))) := by
  simp [exec, execPop, legalOn, hp, hq]

/-- IS_FULL completes with `rsp_flag` telling whether LENGTH is the capacity (R104). -/
theorem exec_isFull (s : State) : exec .isFull s = .next (s.respond .ok s.queue.isFull none none) := rfl

/-- SIZE completes with LENGTH in `rsp_size` (R106). -/
theorem exec_size (s : State) : exec .size s = .next (s.respond .ok true (some (sizeField s.queue)) none) := rfl

/-! ### The indices -/

namespace Queue

variable {C : Nat} {T : Type}

theorem next_val_of_lt {i : Fin C} (h : i.val + 1 < C) : (next i).val = i.val + 1 := Nat.mod_eq_of_lt h

theorem next_val_of_eq {i : Fin C} (h : i.val + 1 = C) : (next i).val = 0 := by simp [h]

theorem push_tail {q q' : Queue C T} {v : T} (h : q.push v = some q') : q'.tail = next q.tail :=
  have ⟨_, _, ht, _⟩ := push_eq_some h
  Fin.ext ht

theorem pop_head {q q' : Queue C T} {v : Option T} (h : q.pop = some (v, q')) : q'.head = next q.head :=
  have ⟨_, _, hh, _⟩ := pop_eq_some h
  Fin.ext hh

end Queue

/-- Only a POP moves HEAD and only a PUSH moves TAIL, each by one slot (R96). -/
theorem QueueMove.indices {p : Port} {i : Instr} {q q' : Queue Config.capacity Packet} (h : QueueMove p i q q') :
    (q'.head = q.head ∨ q'.head = Queue.next q.head) ∧ (q'.tail = q.tail ∨ q'.tail = Queue.next q.tail) := by
  cases h with
  | same h => subst h; exact ⟨.inl rfl, .inl rfl⟩
  | push v _ _ h =>
    obtain ⟨-, hhead, -⟩ := Queue.push_eq_some h
    exact ⟨.inl hhead, .inr (Queue.push_tail h)⟩
  | pop v _ _ h =>
    obtain ⟨-, -, -, htail, -⟩ := Queue.pop_eq_some h
    exact ⟨.inr (Queue.pop_head h), .inl htail⟩

/-- Settles O20: `next` is the successor modulo the capacity, and every command moves the queue as `QueueMove` says. -/
theorem indexAdvancesForwardModuloCapacity : Obligations.IndexAdvancesForwardModuloCapacity := by
  refine ⟨fun C i => ⟨Queue.next_val_of_lt, Queue.next_val_of_eq⟩, fun i s => ?_⟩
  obtain ⟨q, a, he, hmove⟩ := exec_answers i s
  refine ⟨_, he, ?_⟩
  rw [State.respond_queue]
  exact hmove.indices

/-! ### PUSH and POP -/

/-- Settles O21: a queue below capacity takes the element, and a full one is the cause of QUEUE_FULL. -/
theorem pushAppendsUnlessFull : Obligations.PushAppendsUnlessFull := by
  refine fun v s hp => ⟨fun _ => rfl, fun hroom => ?_, fun hfull => ?_⟩
  · have hlt : s.queue.length.val < 30 := Nat.lt_of_le_of_ne s.length_le hroom
    obtain ⟨q, hq⟩ := s.queue.push_some_of_lt v hlt
    obtain ⟨-, hhead, htail, hlength, hread⟩ := Queue.push_eq_some hq
    refine ⟨_, exec_push_of_some hp hq, State.onlyAnswers_respond .., ?_⟩
    rw [State.respond_queue]
    exact ⟨by simp [hread], fun j hj => by simp [hread, hj], htail, hlength, hhead,
      State.answer_respond_on (s := { s with queue := q }) hp ..⟩
  · rw [← hp]
    exact only_responds (exec_of_failure ((failure_eq_queueFull s _).2 ⟨v, rfl, hp, hfull⟩))

/-- A slot that was written gives its element (R99). -/
theorem State.element_some (s : State) (v : Packet) : s.element (some v) = v := rfl

/-- Settles O22: a queue with an element gives the one of slot HEAD, and an empty one is the cause of QUEUE_EMPTY. -/
theorem popReturnsOldestUnlessEmpty : Obligations.PopReturnsOldestUnlessEmpty := by
  refine fun s hp => ⟨fun _ _ => rfl, fun hsome => ?_, fun hempty => ?_⟩
  · obtain ⟨v, q, hq⟩ := s.queue.pop_some_of_pos (Nat.pos_of_ne_zero hsome)
    obtain ⟨-, hv, hhead, htail, hlength, hread⟩ := Queue.pop_eq_some hq
    refine ⟨_, s.element v, exec_pop_of_some hp hq, State.onlyAnswers_respond .., ?_⟩
    rw [State.respond_queue]
    exact ⟨fun w hw => by rw [hv, hw, State.element_some], hread, hhead, hlength, htail,
      State.answer_respond_on (s := { s with queue := q }) hp ..⟩
  · rw [← hp]
    exact only_responds (exec_of_failure ((failure_eq_queueEmpty s _).2 ⟨rfl, hp, hempty⟩))

/-! ### The commands that only answer -/

/-- Settles O23: IS_EMPTY only responds, and its flag is the predicate `empty`. -/
theorem isEmptyAnswersWhetherLengthIsZero : Obligations.IsEmptyAnswersWhetherLengthIsZero := by
  intro s
  obtain ⟨t, he, honly, hqueue, hanswer⟩ := only_responds (exec_isEmpty s)
  exact ⟨fun _ _ => rfl, t, s.queue.isEmpty, he, honly, hqueue, hanswer, Queue.isEmpty_iff s.queue⟩

/-- Settles O24: IS_FULL only responds, and its flag is the predicate `full`. -/
theorem isFullAnswersWhetherLengthIsCapacity : Obligations.IsFullAnswersWhetherLengthIsCapacity := by
  intro s
  obtain ⟨t, he, honly, hqueue, hanswer⟩ := only_responds (exec_isFull s)
  exact ⟨fun _ _ => rfl, t, s.queue.isFull, he, honly, hqueue, hanswer, Queue.isFull_iff s.queue⟩

/-- `rsp_size` holds LENGTH without loss: it is at most 30 (R106). -/
theorem State.sizeField_toNat (s : State) : (sizeField s.queue).toNat = s.queue.length.val :=
  Nat.mod_eq_of_lt (Nat.lt_of_le_of_lt s.length_le (by decide))

/-- Settles O25: SIZE only responds, and LENGTH fits `rsp_size`. -/
theorem sizeAnswersLength : Obligations.SizeAnswersLength := by
  intro s
  obtain ⟨t, he, honly, hqueue, hanswer⟩ := only_responds (exec_size s)
  exact ⟨fun _ _ => rfl, t, sizeField s.queue, he, honly, hqueue, hanswer, s.sizeField_toNat,
    s.sizeField_toNat.trans_le s.length_le⟩

/-- Settles O26: the three forms are the causes of ILLEGAL_COMMAND, and a failure only responds. -/
theorem illegalCommandsChangeNothing : Obligations.IllegalCommandsChangeNothing :=
  fun i s h => only_responds (exec_of_failure ((failure_eq_illegalCommand s i).2 h))

end Sys2Proof.Machine
end

section
/-! The reset family (70_reset_and_hazards.md section 1): what asserting reset leaves, and what the block does while reset
is asserted. -/

namespace Sys2Proof.Machine

namespace State

/-! ### Asserting reset -/

/-- What a port holds is abandoned, whichever moves are to come (R134). -/
theorem assertReset_port_with_schedule (s : State) (l : List Event) (p : Port) :
    ({ s with schedule := l } : State).assertReset.port p = (s.port p).abandoned := by
  cases p <;> rfl

/-! ### The block and the ports while reset is asserted -/

section
variable {s : State} (hr : s.resetAsserted = true)
include hr

/-- No command is linearised (R135). -/
theorem runOr_of_resetAsserted (idle : State) : s.runOr idle = .settle (.next idle) := by
  simp [runOr, nextCommand_reset hr]

/-- No response is raised (R135). -/
theorem deliver_of_resetAsserted (p : Port) : s.deliver p = s := if_pos hr

theorem deliverAny_of_resetAsserted : s.deliverAny = s := by
  simp [deliverAny, deliver_of_resetAsserted hr]

/-- What a host presents is ignored (R135). -/
theorem present_of_resetAsserted (p : Port) (c : Command) : s.present p c = .next s := if_pos hr

end

end State

/-! ### Steps -/

/-- A move of the schedule that runs no command is the whole step. -/
theorem step_of_event {s : State} {e : Event} {rest : List Event} {o : Host.Outcome State Fault Refusal}
    (hs : s.schedule = e :: rest) (he : ({ s with schedule := rest } : State).event e = .settle o) : step s = o := by
  simp [step, State.action_cons hs, he]

/-- Settles O45: the step asserts reset, which resets the queue and abandons what each port holds. -/
theorem resetEmptiesQueueAndAbandonsCommands : Obligations.ResetEmptiesQueueAndAbandonsCommands := by
  intro s rest hs
  refine ⟨_, step_of_event hs rfl, rfl, rfl, rfl, rfl, Queue.content_reset s.queue, fun p => ?_, rfl, rfl⟩
  rw [State.assertReset_port_with_schedule]
  exact ⟨rfl, rfl, rfl⟩

/-- Settles O46: each of the three moves leaves the state it acts on, and so does the block's own move. -/
theorem assertedResetBlocksBothPorts : Obligations.AssertedResetBlocksBothPorts := by
  refine fun s hr => ⟨fun e rest hs he => ?_, fun hs => ?_⟩
  · have hr' : ({ s with schedule := rest } : State).resetAsserted = true := hr
    apply step_of_event hs
    obtain ⟨p, c, rfl⟩ | rfl | ⟨p, rfl⟩ := he
    · rw [State.event, State.present_of_resetAsserted hr']
    · exact State.runOr_of_resetAsserted hr' _
    · rw [State.event, State.deliver_of_resetAsserted hr']
  · simp [step, State.action_nil hs, State.runOr_of_resetAsserted hr, State.deliverAny_of_resetAsserted hr]

end Sys2Proof.Machine
end

section
/-! The encoding family (30_encoding.md): encoder and decoder, the packed command, the wire image of a packet, the command
lines, and the widths of the registers. -/

namespace Sys2Proof

/-! ### The command encoding -/

/-- The encoder drives every signal that the decoder reads (R65, R66). -/
@[simp] theorem decode_encode (i : Instr) : decode (encode i) = i := by cases i <;> rfl

/-- The three signals lie in disjoint bits of the packed word (log entry 1). -/
theorem Command.ofWord_toWord (c : Command) : Command.ofWord c.toWord = c := by
  obtain ⟨op, len, data⟩ := c
  have hop := op.isLt
  have hlen := len.isLt
  have hdata := data.isLt
  simp only [ofWord, toWord, Command.mk.injEq, ← BitVec.toNat_inj, BitVec.toNat_ofNat]
  refine ⟨?_, ?_, ?_⟩ <;> omega

theorem Command.toWord_lt (c : Command) : c.toWord < 2 ^ 171 := by
  have hop := c.op.isLt
  have hlen := c.len.isLt
  have hdata := c.data.isLt
  unfold toWord
  omega

theorem decodeTableWord_toWord (c : Command) : decodeTableWord 171 c.toWord = some (decode c) := by
  rw [decodeTableWord, Nat.mod_eq_of_lt c.toWord_lt, Command.ofWord_toWord]

/-- Settles O3: the decoder undoes the encoder, and the packed word carries the signals. -/
theorem decodeOfEncodeGivesCommand : Obligations.DecodeOfEncodeGivesCommand := fun i =>
  ⟨decode_encode i, by rw [decodeTableWord_toWord, decode_encode]⟩

/-- Settles O4: each signal is read back from its own bits, below bit 171. -/
theorem packedCommandKeepsEverySignal : Obligations.PackedCommandKeepsEverySignal := fun c =>
  ⟨c.ofWord_toWord, c.toWord_lt, decodeTableWord_toWord c⟩

/-! ### The wire image -/

namespace Packet

theorem getElem?_bytes (p : Packet) {i : Nat} (hi : i < 20) : (bytes p)[i]? = some (byte p i) := by
  simp [bytes, hi]

@[simp] theorem pack_bytes (p : Packet) : pack (bytes p) = p := by
  refine eq_of_byte_eq fun i hi => ?_
  rw [byte_pack _ i hi, getElem?_bytes p hi, Option.getD_some]

theorem bytes_pack {w : List Byte} (hw : w.length = 20) : bytes (pack w) = w := by
  refine List.ext_getElem (by rw [length_bytes, hw]) fun i hi hiw => ?_
  simp [bytes, byte_pack w i (hw ▸ hiw), hiw]

end Packet

/-- Settles O5: both directions by comparing byte after byte. -/
theorem wireImageAndPacketAgree : Obligations.WireImageAndPacketAgree :=
  ⟨Packet.pack_bytes, fun _ hw => Packet.bytes_pack hw⟩

/-! ### Command lines -/

/-- Settles O8: the well-formed lines by their forms, with the lanes of `byte_chunkLanes`; an ill-formed line is no
command. -/
theorem commandLineCarriesItsBytes : Obligations.CommandLineCarriesItsBytes := by
  refine ⟨fun idle p port => ?_, fun idle port len bytes hlen hbytes => ?_, fun idle port => ?_, fun idle l hl => ?_⟩
  · simp [assemble, CommandLine.wf]
  · refine ⟨chunkLanes bytes idle, ?_, fun i hi => byte_chunkLanes bytes idle hi⟩
    simp [assemble, CommandLine.wf, hlen, hbytes]
  · exact ⟨rfl, rfl, rfl, rfl, rfl⟩
  · simp [assemble, hl]

/-! ### Register widths -/

theorem le_two_pow_ceilLog2 (n : Nat) : n ≤ 2 ^ Config.ceilLog2 n := by
  unfold Config.ceilLog2
  split
  next h => exact h
  next h =>
    have : n - 1 < 2 ^ ((n - 1).log2 + 1) := Nat.lt_log2_self
    omega

/-- An index below 30 fits the 5 bits of HEAD and TAIL (R22, R23). -/
theorem indexBits_toNat (i : Fin Config.capacity) : (Machine.indexBits i).toNat = i.val :=
  Nat.mod_eq_of_lt (Nat.lt_trans i.isLt (by decide))

/-- An encoding of 30 or more is that of no index. -/
theorem indexBits_ne (i : Fin Config.capacity) {n : BitVec Config.idxW} (hn : 30 ≤ n.toNat) :
    Machine.indexBits i ≠ n := by
  rintro rfl
  exact absurd hn (Nat.not_le.2 ((indexBits_toNat i).trans_lt i.isLt))

/-- Settles O9: `ceilLog2` bits hold that many values; this hardware's widths by evaluation. -/
theorem registerWidthsHoldEveryValue : Obligations.RegisterWidthsHoldEveryValue := by
  refine ⟨fun C _ => ⟨?_, le_two_pow_ceilLog2 (C + 1)⟩, by decide, by decide, fun i =>
    ⟨indexBits_toNat i, indexBits_ne i (by decide), indexBits_ne i (by decide)⟩⟩
  exact (le_two_pow_ceilLog2 C).trans (Nat.pow_le_pow_right (by decide) (Nat.le_max_right ..))

end Sys2Proof
end

section
/-! The codec family (40_codec.md): the fields of a decoded packet, the round trip, and what the verdict of VALIDATE says
of the bytes. -/

namespace Sys2Proof

/-! ### Exclusive-or over a list of bytes -/

/-- The exclusive-or of a list of bytes (R84). -/
def xorAll (l : List Byte) : Byte := l.foldl (· ^^^ ·) 0

theorem foldl_xor_eq (l : List Byte) (a : Byte) : l.foldl (· ^^^ ·) a = a ^^^ xorAll l := by
  have h : l.foldl (· ^^^ ·) (a ^^^ 0#8) = a ^^^ xorAll l := List.foldl_assoc
  rwa [BitVec.xor_zero] at h

theorem xorAll_append_cons (l r : List Byte) (b : Byte) : xorAll (l ++ b :: r) = xorAll l ^^^ b ^^^ xorAll r := by
  rw [xorAll, List.foldl_append, List.foldl_cons, foldl_xor_eq]
  rfl

/-- Changing one byte of a list changes its exclusive-or. -/
theorem eq_getElem_of_xorAll_set {l : List Byte} {k : Nat} {b : Byte} (hk : k < l.length)
    (h : xorAll (l.set k b) = xorAll l) : b = l[k] := by
  have hl : l.take k ++ l[k] :: l.drop (k + 1) = l := by simp
  rw [List.set_eq_take_append_cons_drop, if_pos hk, ← congrArg xorAll hl, xorAll_append_cons, xorAll_append_cons] at h
  exact (BitVec.xor_right_inj _).1 ((BitVec.xor_left_inj _).1 h)

namespace Packet

/-- The 20 bytes of a packet are the covered ones and the checksum (R60). -/
theorem bytes_eq_covered_append (p : Packet) : bytes p = Machine.covered p ++ [cks p] := by
  rw [bytes, Config.packetSize, List.range_succ, List.map_append]
  rfl

/-- A packet that differs in byte `k` alone has the wire image with that byte replaced. -/
theorem bytes_eq_set {p q : Packet} {k : Nat} (h : ∀ i, i < 20 → i ≠ k → byte q i = byte p i) :
    bytes q = (bytes p).set k (byte q k) := by
  refine List.ext_getElem (by simp) fun i hi _ => ?_
  rw [length_bytes] at hi
  by_cases hik : k = i
  · simp [bytes, hik]
  · simp [bytes, hik, h i hi (Ne.symm hik)]

end Packet

namespace Machine

/-- The checksum is right exactly when all 20 bytes xor to 0 (R85). -/
theorem cks_eq_xor8_iff (p : Packet) : Packet.cks p = xor8 p ↔ xorAll (Packet.bytes p) = 0 := by
  have h : xorAll (Packet.bytes p) = xor8 p ^^^ Packet.cks p := by
    rw [Packet.bytes_eq_covered_append, xorAll_append_cons]
    exact BitVec.xor_zero
  rw [h, eq_comm]
  exact BitVec.xor_eq_zero_iff.symm

theorem cksOk_xor8_iff (p : Packet) : cksOk .xor8 p = true ↔ xorAll (Packet.bytes p) = 0 := by
  simp [cksOk, checksumOf, cks_eq_xor8_iff]

/-- VALIDATE's verdict without the padding check, which never refuses (R89). -/
theorem validUnder_checksum_iff_type (p : Packet) : validUnder Config.checksum p = true ↔
    Packet.cks p = xor8 p ∧ (Packet.ptype p).toNat ≤ 8 := by
  have hpad : (Packet.pad p).toNat ≤ 16 := Nat.le_of_lt (Packet.pad p).isLt
  simp [validUnder_checksum_iff, hpad]

/-- Settles O16: a right checksum is the exclusive-or of all bytes being 0. -/
theorem verdictIsXorOfAllBytesAndType : Obligations.VerdictIsXorOfAllBytesAndType := fun p =>
  (validUnder_checksum_iff_type p).trans (and_congr_left' (cks_eq_xor8_iff p))

theorem validate_fails {p : Packet} (s : State) (h : ¬ (Packet.cks p = xor8 p ∧ (Packet.ptype p).toNat ≤ 8)) :
    ∃ t, exec (.validate p) s = .next t ∧ t.answer s.serving = some ⟨.validationFailure, false, none, none⟩ :=
  ⟨_, exec_validate_of_invalid s (mt (validUnder_checksum_iff_type p).1 h), State.answer_respond ..⟩

/-- Settles O17: were the checksum of `q` right too, both exclusive-ors would be 0 and the changed byte the same. -/
theorem oneChangedByteFailsChecksum : Obligations.OneChangedByteFailsChecksum := by
  intro p q k s hk hp hne hsame
  refine validate_fails s fun ⟨hq, _⟩ => hne ?_
  rw [cksOk_xor8_iff] at hp
  rw [cks_eq_xor8_iff, Packet.bytes_eq_set hsame, ← hp] at hq
  have hk' : k < (Packet.bytes p).length := by simp [hk]
  exact (eq_getElem_of_xorAll_set hk' hq).trans (by simp [Packet.bytes])

/-! ### Sealed packets -/

section
variable (m : Byte) (n : BitVec 16) {d : List Byte} (hd : d.length = 16)
include hd

/-- The wire image of a sealed packet: metadata, sequence number, data, and the exclusive-or of all of them (R88). -/
theorem bytes_sealPacket : Packet.bytes (sealPacket m n d) =
    ([m, n.extractLsb' 0 8, n.extractLsb' 8 8] ++ d) ++ [xorAll ([m, n.extractLsb' 0 8, n.extractLsb' 8 8] ++ d)] :=
  Packet.bytes_pack (by simp [hd])

theorem cks_sealPacket : Packet.cks (sealPacket m n d) = xor8 (sealPacket m n d) := by
  rw [cks_eq_xor8_iff, bytes_sealPacket m n hd, xorAll_append_cons, BitVec.xor_self]
  exact BitVec.xor_zero

theorem ptype_sealPacket : Packet.ptype (sealPacket m n d) = m.extractLsb' 4 4 := by
  have h : some (Packet.byte (sealPacket m n d) 0) = some m := by
    rw [← Packet.getElem?_bytes _ (by decide), bytes_sealPacket m n hd]; rfl
  rw [Packet.ptype_eq_high_nibble, Option.some.inj h]

end

/-- Settles O18: the checksum is right by construction, so the type decides. -/
theorem sealedPacketIsValidIffTypeIsKnown : Obligations.SealedPacketIsValidIffTypeIsKnown := by
  intro m n d s hd
  have hvalid := validUnder_checksum_iff_type (sealPacket m n d)
  rw [ptype_sealPacket m n hd, and_iff_right (cks_sealPacket m n hd)] at hvalid
  refine ⟨cks_sealPacket m n hd, ?_⟩
  by_cases h : validUnder Config.checksum (sealPacket m n d) = true
  · exact ⟨_, _, exec_validate_of_valid s h, State.answer_respond .., by simpa using hvalid.1 h⟩
  · exact ⟨_, _, exec_validate_of_invalid s h, State.answer_respond .., by simpa using mt hvalid.2 h⟩

/-! ### DECODE of a chunk -/

/-- Settles O13: the wire image is a chunk of 20 bytes that packs to the packet. -/
theorem decodeOfWireImageGivesPacket : Obligations.DecodeOfWireImageGivesPacket := by
  intro p idle s
  have hlen : 20 ≤ (Packet.bytes p).length := (Packet.length_bytes p).ge
  refine ⟨_, exec_decode_long_chunk idle s hlen, ?_⟩
  rw [List.take_of_length_le (Packet.length_bytes p).le, Packet.pack_bytes, State.answer_respond]

theorem byte_pack_take {raw : List Byte} (h : 20 ≤ raw.length) (i : Nat) (hi : i < 20) :
    Packet.byte (Packet.pack (raw.take 20)) i = raw[i] := by
  have : i < raw.length := by omega
  simp [Packet.byte_pack _ i hi, hi, this]

/-- The sequence number is little-endian on the wire (R53). -/
theorem seq_toNat (p : Packet) : (Packet.seq p).toNat = (Packet.byte p 1).toNat + 256 * (Packet.byte p 2).toNat := by
  rw [Packet.seq_eq_append, BitVec.toNat_append, ← Nat.shiftLeft_add_eq_or_of_lt (Packet.byte p 1).isLt,
    Nat.shiftLeft_eq]
  omega

/-- Settles O12: each field of the packet is made of its bytes, and these are the chunk's. -/
theorem decodedFieldsComeFromTheChunk : Obligations.DecodedFieldsComeFromTheChunk := by
  intro raw idle s h
  have hbyte := byte_pack_take h
  refine ⟨_, Packet.pack (raw.take 20), exec_decode_long_chunk idle s h, State.answer_respond .., hbyte 0 (by decide),
    ?_, ?_, ?_, fun j hj => ?_, hbyte 19 (by decide)⟩
  · rw [Packet.ptype_eq_high_nibble, hbyte 0 (by decide)]
  · rw [Packet.pad_eq_low_nibble, hbyte 0 (by decide)]
  · rw [seq_toNat, hbyte 1 (by decide), hbyte 2 (by decide)]
  · rw [Packet.data_eq_byte, hbyte (3 + j) (by omega)]

/-! ### Packet types -/

/-- Beyond 8 no type ID has a name, and up to 8 each has one (R57). -/
theorem packetTypeOf_eq_none (t : BitVec 4) : packetTypeOf t = none ↔ 9 ≤ t.toNat := by
  revert t; decide

/-- Settles O7: DECODE does not look at the type, and VALIDATE refuses a type beyond 8. -/
theorem onlyNinePacketTypesAreKnown : Obligations.OnlyNinePacketTypesAreKnown := by
  refine ⟨rfl, fun t => (packetTypeOf_eq_none t).2, fun p s hp => ⟨?_, validate_fails s fun ⟨_, htype⟩ => ?_⟩⟩
  · exact ⟨_, exec_decode_of_long p s (by decide), State.answer_respond ..⟩
  · exact absurd ((packetTypeOf_eq_none _).1 hp) (Nat.not_le.2 (Nat.lt_succ_iff.2 htype))

end Machine
end Sys2Proof
end

section
/-! The laws of the queue (41_queue.md sections 2 to 4 and 6), for every capacity and element type. -/

namespace Sys2Proof.Machine

namespace Queue

variable {C : Nat} {T : Type}

/-! ### The equations of `runOps` -/

section
variable {q q' : Queue C T} (rest : List (Op T))

theorem runOps_push_none {v : T} (h : q.push v = none) : runOps (.push v :: rest) q = runOps rest q := by
  simp [runOps, h]

theorem runOps_push_some {v : T} (h : q.push v = some q') :
    runOps (.push v :: rest) q = { runOps rest q' with pushed := v :: (runOps rest q').pushed } := by
  simp [runOps, h]

theorem runOps_pop_none (h : q.pop = none) : runOps (.pop :: rest) q = runOps rest q := by
  simp [runOps, h]

theorem runOps_pop_some {v : Option T} (h : q.pop = some (v, q')) :
    runOps (.pop :: rest) q = { runOps rest q' with popped := v :: (runOps rest q').popped } := by
  simp [runOps, h]

end

/-- A claim about every run of PUSHes and POPs: by the five ways in which a run goes on. -/
theorem runOps_induction {motive : List (Op T) → Queue C T → Trace C T → Prop}
    (nil : ∀ q, motive [] q ⟨[], [], q⟩)
    (pushFails : ∀ v rest q t, q.push v = none → motive rest q t → motive (.push v :: rest) q t)
    (push : ∀ v rest q q' t, q.push v = some q' → motive rest q' t →
      motive (.push v :: rest) q { t with pushed := v :: t.pushed })
    (popFails : ∀ rest q t, q.pop = none → motive rest q t → motive (.pop :: rest) q t)
    (pop : ∀ v rest q q' t, q.pop = some (v, q') → motive rest q' t →
      motive (.pop :: rest) q { t with popped := v :: t.popped })
    (ops : List (Op T)) (q : Queue C T) : motive ops q (runOps ops q) := by
  induction ops generalizing q with
  | nil => exact nil q
  | cons o rest ih =>
    cases o with
    | push v =>
      cases h : q.push v with
      | none => rw [runOps_push_none rest h]; exact pushFails v rest q _ h (ih q)
      | some q' => rw [runOps_push_some rest h]; exact push v rest q q' _ h (ih q')
    | pop =>
      cases h : q.pop with
      | none => rw [runOps_pop_none rest h]; exact popFails rest q _ h (ih q)
      | some vq => rw [runOps_pop_some rest h]; exact pop vq.1 rest q vq.2 _ h (ih vq.2)

/-- What comes out and what is left is what was in and what went in, in order (R101). -/
theorem runOps_fifo (ops : List (Op T)) (q : Queue C T) : q.Consistent → (runOps ops q).final.Consistent ∧
    (runOps ops q).popped ++ (runOps ops q).final.content = q.content ++ (runOps ops q).pushed.map some := by
  induction ops, q using runOps_induction with
  | nil q => exact fun hc => ⟨hc, by simp⟩
  | pushFails v rest q t h ih => exact ih
  | push v rest q q' t h ih =>
    intro hc
    obtain ⟨hfinal, horder⟩ := ih (consistent_push hc h)
    exact ⟨hfinal, by simp [horder, content_push hc h]⟩
  | popFails rest q t h ih => exact ih
  | pop v rest q q' t h ih =>
    intro hc
    obtain ⟨hfinal, horder⟩ := ih (consistent_pop hc h)
    exact ⟨hfinal, by simp [horder, content_pop h]⟩

/-- LENGTH counts the successful commands (R112). -/
theorem runOps_length (ops : List (Op T)) (q : Queue C T) :
    (runOps ops q).final.length.val + (runOps ops q).popped.length = q.length.val + (runOps ops q).pushed.length := by
  induction ops, q using runOps_induction with
  | nil q => rfl
  | pushFails v rest q t h ih => exact ih
  | push v rest q q' t h ih =>
    obtain ⟨-, -, -, hlength, -⟩ := push_eq_some h
    simp only [List.length_cons]
    omega
  | popFails rest q t h ih => exact ih
  | pop v rest q q' t h ih =>
    obtain ⟨hpos, -, -, -, hlength, -⟩ := pop_eq_some h
    simp only [List.length_cons]
    omega

theorem runOps_append_final (ops more : List (Op T)) (q : Queue C T) :
    (runOps (ops ++ more) q).final = (runOps more (runOps ops q).final).final := by
  induction ops, q using runOps_induction with
  | nil q => rfl
  | pushFails v rest q t h ih => rw [List.cons_append, runOps_push_none _ h, ih]
  | push v rest q q' t h ih => rw [List.cons_append, runOps_push_some _ h]; exact ih
  | popFails rest q t h ih => rw [List.cons_append, runOps_pop_none _ h, ih]
  | pop v rest q q' t h ih => rw [List.cons_append, runOps_pop_some _ h]; exact ih

/-! ### Sequences that meet no full and no empty queue -/

/-- The value that a PUSH carries. -/
def Op.pushValue : Op T → Option T
  | .push v => some v
  | .pop => none

/-- Whether the command is a POP. -/
def Op.isPop : Op T → Bool
  | .push _ => false
  | .pop => true

/-- When every command succeeds, what was pushed and the number popped can be read off the sequence. -/
theorem runOps_of_allSucceed (ops : List (Op T)) (q : Queue C T) : allSucceed ops q →
    (runOps ops q).pushed = ops.filterMap Op.pushValue ∧ (runOps ops q).popped.length = ops.countP Op.isPop := by
  induction ops, q using runOps_induction with
  | nil q => exact fun _ => ⟨rfl, rfl⟩
  | pushFails v rest q t h ih => exact fun ⟨q', h', _⟩ => nomatch h.symm.trans h'
  | push v rest q q' t h ih =>
    rintro ⟨_, h', hrest⟩
    cases h.symm.trans h'
    obtain ⟨hpushed, hpopped⟩ := ih hrest
    exact ⟨congrArg (v :: ·) hpushed, hpopped⟩
  | popFails rest q t h ih => exact fun ⟨_, _, h', _⟩ => nomatch h.symm.trans h'
  | pop v rest q q' t h ih =>
    rintro ⟨_, _, h', hrest⟩
    cases h.symm.trans h'
    obtain ⟨hpushed, hpopped⟩ := ih hrest
    exact ⟨hpushed, (congrArg (· + 1) hpopped).trans (List.countP_cons_of_pos rfl).symm⟩

/-- PUSHes for which there is room all succeed (R97). -/
theorem allSucceed_pushes (vs : List T) (q : Queue C T) (h : q.length.val + vs.length ≤ C) :
    allSucceed (vs.map .push) q := by
  induction vs generalizing q with
  | nil => trivial
  | cons v vs ih =>
    rw [List.length_cons] at h
    obtain ⟨q', hq'⟩ := push_some_of_lt q v (by omega)
    obtain ⟨-, -, -, hlength, -⟩ := push_eq_some hq'
    exact ⟨q', hq', ih q' (by omega)⟩

/-- A sequence of PUSHes for which there is room adds its length to LENGTH. -/
theorem runOps_pushes_length {vs : List T} {q : Queue C T} (h : q.length.val + vs.length ≤ C) :
    (runOps (vs.map .push) q).final.length.val = q.length.val + vs.length := by
  obtain ⟨hpushed, hpopped⟩ := runOps_of_allSucceed _ q (allSucceed_pushes vs q h)
  have hvalues : (vs.map Op.push).filterMap Op.pushValue = vs := by
    rw [List.filterMap_map]; exact List.filterMap_some
  have hpops : (vs.map Op.push).countP Op.isPop = 0 := by simp [List.countP_eq_zero, Op.isPop]
  have hcount := runOps_length (vs.map .push) q
  rwa [hpushed, hpopped, hvalues, hpops] at hcount

/-- With C = 1 a PUSH that succeeds leaves the value in the slot of HEAD. -/
theorem memRead_head_push_one {q q' : Queue 1 T} {v : T} (h : q.push v = some q') : q'.memRead q'.head = some v := by
  obtain ⟨-, -, -, -, hread⟩ := push_eq_some h
  rw [hread, if_pos (Subsingleton.elim _ _)]

end Queue

/-- Settles O32: the FIFO law of `runOps_fifo`. -/
theorem popOrderIsPushOrder : Obligations.PopOrderIsPushOrder := fun _ _ q ops hc => Queue.runOps_fifo ops q hc

/-- Settles O34: the count of `runOps_length`. -/
theorem sizeCountsSuccessfulCommands : Obligations.SizeCountsSuccessfulCommands := fun _ _ q ops =>
  Queue.runOps_length ops q

/-- Settles O31: the PUSHes leave LENGTH at C, a full queue takes no further one, and a PUSH that fails changes nothing. -/
theorem capacityPushesFillTheQueue : Obligations.CapacityPushesFillTheQueue := by
  intro C T hC vs v hvs
  have hroom : (Queue.fresh C T hC).length.val + vs.length ≤ C := by simp [Queue.fresh, hvs]
  have hfull : (Queue.runOps (vs.map .push) (Queue.fresh C T hC)).final.length.val = C := by
    rw [Queue.runOps_pushes_length hroom, hvs]
    exact Nat.zero_add C
  have hpush := Queue.push_eq_none (v := v).2 hfull
  refine ⟨Queue.allSucceed_pushes vs _ hroom, (Queue.isFull_iff _).2 hfull, hpush, ?_⟩
  rw [Queue.runOps_append_final, Queue.runOps_push_none [] hpush]
  exact hfull

/-- Settles O33: LENGTH by the count of successes, the popped values as the start of what the FIFO law gives. -/
theorem wrapAroundKeepsCountAndOrder : Obligations.WrapAroundKeepsCountAndOrder := by
  intro C T hC ops vs k hall hvs hk
  obtain ⟨hpushed, hpopped⟩ := Queue.runOps_of_allSucceed ops _ hall
  replace hpushed := hpushed.trans hvs.symm
  replace hpopped := hpopped.trans hk.symm
  obtain ⟨-, horder⟩ := Queue.runOps_fifo ops _ (Queue.consistent_fresh hC)
  rw [Queue.content_fresh, List.nil_append, hpushed] at horder
  have hcount := Queue.runOps_length ops (Queue.fresh C T hC)
  rw [hpushed, hpopped] at hcount
  refine ⟨hcount.trans (Nat.zero_add _), ?_⟩
  rw [List.map_take, ← horder, ← hpopped, List.take_left]

/-- Settles O35: the one slot is the one index, and LENGTH is 0 or 1. -/
theorem capacityOneQueueAlternates : Obligations.CapacityOneQueueAlternates := by
  intro T q v w
  have hlength : q.length.val = 0 ∨ q.length.val = 1 := by have := q.length.isLt; omega
  refine ⟨Nat.lt_one_iff.1 q.head.isLt, Nat.lt_one_iff.1 q.tail.isLt, ?_, fun hempty => ?_⟩
  · obtain h | h := hlength <;> simp [Queue.isEmpty, Queue.isFull, h]
  · obtain ⟨q', hpush⟩ := q.push_some_of_lt v (by omega)
    obtain ⟨-, -, -, hlength', -⟩ := Queue.push_eq_some hpush
    rw [hempty] at hlength'
    obtain ⟨x, q'', hpop⟩ := q'.pop_some_of_pos (by omega)
    obtain ⟨-, hx, -, -, hlength'', -⟩ := Queue.pop_eq_some hpop
    rw [Queue.memRead_head_push_one hpush] at hx
    rw [hlength'] at hlength''
    exact ⟨q', hpush, (Queue.isFull_iff _).2 hlength', Queue.push_eq_none.2 hlength', q'', hx ▸ hpop,
      (Queue.isEmpty_iff _).2 hlength''⟩

end Sys2Proof.Machine
end

section
/-! Commands against the sequential rules over a list (10_state.md, 41_queue.md), and the hosts' sequences of commands
(R76, 70_reset_and_hazards.md section 2). -/

namespace Sys2Proof.Machine

/-! ### The refinement -/

/-- Command `i` on the served port refines the sequential rules over content `Q`: it completes, keeps the queue's
invariant, and leaves the content and gives the answer of `listStep`; the rest is left alone. -/
def RefinesList (i : Instr) (s : State) (Q : List Packet) : Prop :=
  ∃ t, exec i s = .next t ∧ OnlyAnswers s t ∧ t.queue.Consistent ∧
    t.queue.content = (listStep s.serving i Q).1.map some ∧ t.answer s.serving = some (listStep s.serving i Q).2

section
variable {i : Instr} {s : State} {Q Q' : List Packet} {q : Queue Config.capacity Packet} {st : Status} {f : Bool}
  {sz : Option (BitVec Config.lenW)} {d : Option Packet}

/-- A command refines the list when the queue and the answer it responds with do. -/
theorem refinesList_of_respond (he : exec i s = .next (({ s with queue := q } : State).respond st f sz d))
    (hl : listStep s.serving i Q = (Q', ⟨st, f, sz, d⟩)) (hc : q.Consistent) (hq : q.content = Q'.map some) :
    RefinesList i s Q := by
  refine ⟨_, he, State.onlyAnswers_respond s q .., ?_, ?_, ?_⟩
  · rwa [State.respond_queue]
  · rwa [State.respond_queue, hl]
  · rw [hl]
    exact State.answer_respond { s with queue := q } ..

variable (hc : s.queue.Consistent) (hq : s.queue.content = Q.map some)
include hc hq

/-- A command that only responds refines the list when its answer is that of `listStep`. -/
theorem refinesList_of_only_responds (he : exec i s = .next (s.respond st f sz d))
    (hl : listStep s.serving i Q = (Q, ⟨st, f, sz, d⟩)) : RefinesList i s Q :=
  refinesList_of_respond (q := s.queue) he hl hc hq

/-- A command that fails refines the list when `listStep` gives the same failure. -/
theorem refinesList_of_failure (st : Status) (hf : failure s i = some st)
    (hl : listStep s.serving i Q = (Q, ⟨st, false, none, none⟩)) : RefinesList i s Q :=
  refinesList_of_only_responds hc hq (exec_of_failure hf) hl

end

section
variable {s : State} {Q : List Packet} (hc : s.queue.Consistent) (hq : s.queue.content = Q.map some)

include hq

theorem length_eq_of_content : s.queue.length.val = Q.length := by
  rw [← Queue.content_length, hq, List.length_map]

include hc

theorem push_refinesList (v : Packet) : RefinesList (.push v) s Q := by
  have hlength := length_eq_of_content hq
  cases hp : s.serving with
  | K => exact refinesList_of_failure hc hq .illegalCommand (by simp [failure, hp]) (by simp [listStep, hp])
  | P =>
    cases hpush : s.queue.push v with
    | none =>
      have hfull := Queue.push_eq_none.1 hpush
      exact refinesList_of_failure hc hq .queueFull (by simp [failure, hp, hfull])
        (by simp [listStep, hp, ← hlength, hfull])
    | some q =>
      have hroom := Nat.ne_of_lt (Queue.push_eq_some hpush).1
      exact refinesList_of_respond (Q' := Q ++ [v]) (exec_push_of_some hp hpush)
        (by simp [listStep, hp, ← hlength, hroom]) (Queue.consistent_push hc hpush)
        (by simp [Queue.content_push hc hpush, hq])

theorem pop_refinesList : RefinesList .pop s Q := by
  have hlength := length_eq_of_content hq
  cases hp : s.serving with
  | P => exact refinesList_of_failure hc hq .illegalCommand (by simp [failure, hp]) (by simp [listStep, hp])
  | K =>
    cases Q with
    | nil =>
      have hempty : s.queue.length.val = 0 := hlength
      exact refinesList_of_failure hc hq .queueEmpty (by simp [failure, hp, hempty]) (by simp [listStep, hp])
    | cons v rest =>
      obtain ⟨x, q, hpop⟩ := s.queue.pop_some_of_pos (by simp [hlength])
      have hcontent := (Queue.content_pop hpop).symm.trans hq
      rw [List.map_cons, List.cons.injEq] at hcontent
      obtain ⟨rfl, hrest⟩ := hcontent
      exact refinesList_of_respond (exec_pop_of_some hp hpop) (by simp [listStep, hp, State.element_some])
        (Queue.consistent_pop hc hpop) hrest

theorem exec_refinesList (i : Instr) : RefinesList i s Q := by
  have hlength := length_eq_of_content hq
  cases i with
  | decode len data =>
    by_cases h : len.toNat < 20
    · exact refinesList_of_failure hc hq .tooShort (by simp [failure, h]) (by simp [listStep, h])
    · exact refinesList_of_only_responds hc hq (exec_decode_of_long data s (Nat.not_lt.1 h)) (by simp [listStep, h])
  | validate p =>
    by_cases h : validUnder Config.checksum p = true
    · exact refinesList_of_only_responds hc hq (exec_validate_of_valid s h) (by simp [listStep, h])
    · exact refinesList_of_failure hc hq .validationFailure (by simp [failure, h]) (by simp [listStep, h])
  | push v => exact push_refinesList hc hq v
  | pop => exact pop_refinesList hc hq
  | isEmpty =>
    have hempty : s.queue.isEmpty = Q.isEmpty := by
      rw [Bool.eq_iff_iff, Queue.isEmpty_iff, hlength, List.isEmpty_iff_length_eq_zero]
    exact refinesList_of_only_responds hc hq (exec_isEmpty s) (by rw [hempty]; rfl)
  | isFull => exact refinesList_of_only_responds hc hq (exec_isFull s) (by rw [Queue.isFull, hlength]; rfl)
  | size => exact refinesList_of_only_responds hc hq (exec_size s) (by rw [sizeField, hlength]; rfl)
  | reserved => exact refinesList_of_failure hc hq .illegalCommand rfl rfl

end

/-- Settles O36: command by command. -/
theorem circularQueueRefinesList : Obligations.CircularQueueRefinesList := fun i _ _ hc hq => exec_refinesList hc hq i

/-! ### What a command writes -/

namespace QueueMove

variable {p : Port} {i : Instr} {q q' : Queue Config.capacity Packet} (h : QueueMove p i q q')
include h

/-- Without a successful PUSH on P, TAIL and QSTORE stay (R29). -/
theorem tail_qstore_eq (hpush : ¬ ∃ v, i = .push v ∧ p = .P ∧ q.length.val ≠ 30) :
    q'.tail = q.tail ∧ q'.qstore = q.qstore := by
  cases h with
  | same h => subst h; exact ⟨rfl, rfl⟩
  | push v hi hp h => exact absurd ⟨v, hi, hp, Nat.ne_of_lt (Queue.push_eq_some h).1⟩ hpush
  | pop v hi hp h =>
    obtain ⟨-, -, -, htail, -, hread⟩ := Queue.pop_eq_some h
    exact ⟨htail, Vector.ext fun j hj => hread ⟨j, hj⟩⟩

/-- Without a successful POP on K, HEAD stays (R29). -/
theorem head_eq (hpop : ¬ (i = .pop ∧ p = .K ∧ q.length.val ≠ 0)) : q'.head = q.head := by
  cases h with
  | same h => subst h; rfl
  | push v hi hp h =>
    obtain ⟨-, hhead, -⟩ := Queue.push_eq_some h
    exact hhead
  | pop v hi hp h => exact absurd ⟨hi, hp, Nat.ne_of_gt (Queue.pop_eq_some h).1⟩ hpop

/-- Without either, LENGTH stays (R29). -/
theorem length_eq (hpush : ¬ ∃ v, i = .push v ∧ p = .P ∧ q.length.val ≠ 30)
    (hpop : ¬ (i = .pop ∧ p = .K ∧ q.length.val ≠ 0)) : q'.length = q.length := by
  cases h with
  | same h => subst h; rfl
  | push v hi hp h => exact absurd ⟨v, hi, hp, Nat.ne_of_lt (Queue.push_eq_some h).1⟩ hpush
  | pop v hi hp h => exact absurd ⟨hi, hp, Nat.ne_of_gt (Queue.pop_eq_some h).1⟩ hpop

/-- On K no command makes the queue longer. -/
theorem length_le_of_K (hp : p = .K) : q'.length.val ≤ q.length.val := by
  cases h with
  | same h => subst h; exact Nat.le_refl _
  | push v hi hp' h => exact absurd (hp.symm.trans hp') nofun
  | pop v hi hp h =>
    obtain ⟨-, -, -, -, hlength, -⟩ := Queue.pop_eq_some h
    omega

/-- On P no command makes the queue shorter. -/
theorem length_le_of_P (hp : p = .P) : q.length.val ≤ q'.length.val := by
  cases h with
  | same h => subst h; exact Nat.le_refl _
  | push v hi hp h =>
    obtain ⟨-, -, -, hlength, -⟩ := Queue.push_eq_some h
    omega
  | pop v hi hp' h => exact absurd (hp.symm.trans hp') nofun

end QueueMove

/-- Settles O29: a command moves the queue as `QueueMove` says. -/
theorem onlyPushAndPopWriteTheQueue : Obligations.OnlyPushAndPopWriteTheQueue := by
  intro i s
  obtain ⟨q, a, he, hmove⟩ := exec_answers i s
  refine ⟨_, he, ?_⟩
  rw [State.respond_queue]
  exact ⟨hmove.head_eq, hmove.tail_qstore_eq, fun hpop hpush => hmove.length_eq hpush hpop⟩

/-- Settles O30: the three answers are read off one LENGTH. -/
theorem queriesAgreeInOneState : Obligations.QueriesAgreeInOneState := by
  intro s
  refine ⟨_, _, _, _, _, _, exec_isEmpty s, exec_isFull s, exec_size s, State.answer_respond .., State.answer_respond ..,
    State.answer_respond .., ?_, ?_, ?_⟩
  · rw [Queue.isEmpty_iff, s.sizeField_toNat]
  · rw [Queue.isFull_iff, s.sizeField_toNat]
  · rw [Queue.isEmpty_iff, Queue.isFull_iff]
    rintro ⟨hempty, hfull⟩
    exact absurd (hempty.symm.trans hfull) (by decide)

/-! ### A command issued and answered -/

/-- What a host gets from `transact` is the answer of the command's meaning, and the queue is the one it leaves (R110). -/
theorem transact_of_exec {p : Port} {i : Instr} {s t : State} {a : Answer}
    (he : exec i { s with serving := p } = .next t) (ha : t.answer p = some a) :
    ∃ r u, transact p (encode i) s = some (r, u) ∧ r.answer = a ∧ u.queue = t.queue := by
  obtain ⟨r, hr, hra⟩ := Option.map_eq_some_iff.1 ha
  exact ⟨r, t.setPort p (t.port p).delivered, by simp [transact, he, hr], hra, State.setPort_queue ..⟩

/-- Every transaction completes, and moves the queue as `QueueMove` says. -/
theorem transact_moves (p : Port) (i : Instr) (s : State) :
    ∃ r u, transact p (encode i) s = some (r, u) ∧ QueueMove p i s.queue u.queue := by
  obtain ⟨q, a, he, hmove⟩ := exec_answers i { s with serving := p }
  obtain ⟨r, u, hu, -, hqueue⟩ := transact_of_exec he (State.answer_respond_on (p := p) rfl ..)
  rw [State.respond_queue] at hqueue
  exact ⟨r, u, hu, hqueue ▸ hmove⟩

/-- What every command on port `p` keeps of the queue, a sequence of them keeps. -/
theorem runOn_keeps {p : Port} {Keeps : Queue Config.capacity Packet → Prop}
    (h : ∀ {i q q'}, QueueMove p i q q' → Keeps q → Keeps q') (cs : List Instr) {s : State} (hs : Keeps s.queue) :
    ∃ t, runOn p cs s = some t ∧ Keeps t.queue := by
  induction cs generalizing s with
  | nil => exact ⟨s, rfl, hs⟩
  | cons i cs ih =>
    obtain ⟨r, u, hu, hmove⟩ := transact_moves p i s
    obtain ⟨t, ht, hkeeps⟩ := ih (h hmove hs)
    exact ⟨t, by simp [runOn, hu, ht], hkeeps⟩

/-- Settles O50: no command on K raises LENGTH, and a PUSH on P succeeds below capacity. -/
theorem roomSeenByProducerStays : Obligations.RoomSeenByProducerStays := by
  intro s cs v hroom
  obtain ⟨t, ht, hle⟩ := runOn_keeps (Keeps := fun q => q.length.val ≤ s.queue.length.val)
    (fun hmove => (hmove.length_le_of_K rfl).trans) cs (Nat.le_refl _)
  obtain ⟨q, hq⟩ := t.queue.push_some_of_lt v (hle.trans_lt hroom)
  obtain ⟨r, u, hu, hr, -⟩ := transact_of_exec (exec_push_of_some (s := { t with serving := .P }) rfl hq)
    (State.answer_respond_on (p := .P) rfl ..)
  exact ⟨t, r, u, ht, hle, hu, congrArg Answer.status hr⟩

/-- Settles O51: no command on P lowers LENGTH, and a POP on K succeeds above 0. -/
theorem elementSeenByConsumerStays : Obligations.ElementSeenByConsumerStays := by
  intro s cs helement
  obtain ⟨t, ht, hle⟩ := runOn_keeps (Keeps := fun q => s.queue.length.val ≤ q.length.val)
    (fun hmove hs => hs.trans (hmove.length_le_of_P rfl)) cs (Nat.le_refl _)
  obtain ⟨v, q, hq⟩ := t.queue.pop_some_of_pos (helement.trans_le hle)
  obtain ⟨r, u, hu, hr, -⟩ := transact_of_exec (exec_pop_of_some (s := { t with serving := .K }) rfl hq)
    (State.answer_respond_on (p := .K) rfl ..)
  exact ⟨t, r, u, ht, hle, hu, congrArg Answer.status hr⟩

/-! ### INGEST and CONSUME -/

/-- A data field that is given carries its value. -/
theorem given_eq_some {w : Nat} {d : Driven w} {v : BitVec w} : d.given = some v ↔ d = .value v := by
  cases d <;> simp [Driven.given]

/-- The queue of `s` meets its invariant and has content `Q`. -/
structure Holds (s : State) (Q : List Packet) : Prop where
  consistent : s.queue.Consistent
  content    : s.queue.content = Q.map some

/-- A transaction refines the sequential rules, with the fields of the response that the hosts' sequences read. -/
theorem transact_holds {s : State} {Q : List Packet} (h : Holds s Q) (p : Port) (i : Instr) :
    ∃ r u, transact p (encode i) s = some (r, u) ∧ r.status = (listStep p i Q).2.status ∧
      r.flag = (listStep p i Q).2.flag ∧ r.data.given = (listStep p i Q).2.data ∧ Holds u (listStep p i Q).1 := by
  obtain ⟨t, he, -, hct, hqt, hat⟩ := exec_refinesList (s := { s with serving := p }) h.consistent h.content i
  obtain ⟨r, u, hu, hr, hqueue⟩ := transact_of_exec he hat
  exact ⟨r, u, hu, congrArg Answer.status hr, congrArg Answer.flag hr, congrArg Answer.data hr, hqueue ▸ hct,
    hqueue ▸ hqt⟩

/-- VALIDATE changes no content, and its flag is the verdict. -/
theorem transact_validate {s : State} {Q : List Packet} (h : Holds s Q) (p : Port) (x : Packet) :
    ∃ r u, transact p (encode (.validate x)) s = some (r, u) ∧ r.flag = validUnder Config.checksum x ∧ Holds u Q := by
  obtain ⟨r, u, hu, -, hflag, -, hholds⟩ := transact_holds h p (.validate x)
  refine ⟨r, u, hu, ?_, hholds⟩
  rw [hflag]
  cases hv : validUnder Config.checksum x <;> simp [listStep, hv]

/-- The PUSH of INGEST: dropped at capacity, queued below it (R76). -/
theorem ingestPush_ends {s : State} {Q : List Packet} (h : Holds s Q) (x : Packet) :
    ∃ t, if Q.length = 30 then ingestPush x s = some (.packetDropped, t) ∧ Holds t Q
      else ingestPush x s = some (.packetQueued, t) ∧ Holds t (Q ++ [x]) := by
  obtain ⟨r, u, hu, hstatus, -, -, hholds⟩ := transact_holds h .P (.push x)
  refine ⟨u, ?_⟩
  by_cases hfull : Q.length = 30
  · simp only [listStep, hfull, if_true] at hstatus hholds
    simp [ingestPush, hu, hfull, hstatus, hholds]
  · simp only [listStep, hfull, if_false] at hstatus hholds
    simp [ingestPush, hu, hfull, hstatus, hholds]

section
variable {s : State} {Q : List Packet} (h : Holds s Q) (gate : Bool)
include h

/-- INGEST of a short chunk ends after its DECODE. -/
theorem ingest_short {raw : List Byte} (idle : Packet) (hraw : raw.length < 20) :
    ∃ t, ingest gate raw idle s = some (.chunkDiscarded, t) ∧ Holds t Q := by
  have hlen : (chunkLen raw).toNat < 20 := Nat.not_le.1 (mt (twenty_le_chunkLen raw).1 (Nat.not_le.2 hraw))
  obtain ⟨r, t, ht, hstatus, -, -, hholds⟩ := transact_holds h .P (.decode (chunkLen raw) (chunkLanes raw idle))
  simp only [listStep, if_pos hlen] at hstatus hholds
  exact ⟨t, by simp [ingest, ht, hstatus], hholds⟩

/-- INGEST of a chunk of 20 bytes or more goes on to its PUSH, unless the gate stops it. -/
theorem ingest_long {raw : List Byte} (idle : Packet) (hraw : 20 ≤ raw.length) :
    ∃ t, Holds t Q ∧ ingest gate raw idle s =
      if gate = true ∧ validUnder Config.checksum (Packet.pack (raw.take 20)) = false then some (.packetInvalid, t)
      else ingestPush (Packet.pack (raw.take 20)) t := by
  have hlen : ¬ (chunkLen raw).toNat < 20 := Nat.not_lt.2 ((twenty_le_chunkLen raw).2 hraw)
  obtain ⟨r, t, ht, hstatus, -, hdata, hholds⟩ := transact_holds h .P (.decode (chunkLen raw) (chunkLanes raw idle))
  simp only [listStep, if_neg hlen, chunkLanes_eq_pack_take idle hraw] at ht hstatus hdata hholds
  rw [given_eq_some] at hdata
  cases gate with
  | false => exact ⟨t, hholds, by simp [ingest, chunkLanes_eq_pack_take idle hraw, ht, hstatus, hdata]⟩
  | true =>
    obtain ⟨v, u, hu, hflag, hholds'⟩ := transact_validate hholds .P (Packet.pack (raw.take 20))
    refine ⟨u, hholds', ?_⟩
    cases hv : validUnder Config.checksum (Packet.pack (raw.take 20)) <;>
      simp [ingest, chunkLanes_eq_pack_take idle hraw, ht, hstatus, hdata, hu, hflag, hv]

end

/-- Settles O53: by the length of the chunk, the gate, and the room in the queue. -/
theorem ingestQueuesTheDecodedPacket : Obligations.IngestQueuesTheDecodedPacket := by
  intro gate raw idle s Q hc hq
  have h : Holds s Q := ⟨hc, hq⟩
  by_cases hraw : raw.length < 20
  · obtain ⟨t, ht, hholds⟩ := ingest_short h gate idle hraw
    simp only [if_pos hraw]
    exact ⟨_, t, ht, hholds.consistent, rfl, hholds.content⟩
  obtain ⟨t, hholds, ht⟩ := ingest_long h gate idle (Nat.not_lt.1 hraw)
  simp only [if_neg hraw, ht]
  by_cases hgate : gate = true ∧ validUnder Config.checksum (Packet.pack (raw.take 20)) = false
  · simp only [if_pos hgate]
    exact ⟨_, t, rfl, hholds.consistent, rfl, hholds.content⟩
  obtain ⟨u, hu⟩ := ingestPush_ends hholds (Packet.pack (raw.take 20))
  simp only [if_neg hgate]
  by_cases hfull : Q.length = 30
  · simp only [if_pos hfull] at hu ⊢
    exact ⟨_, u, hu.1, hu.2.consistent, rfl, hu.2.content⟩
  · simp only [if_neg hfull] at hu ⊢
    exact ⟨_, u, hu.1, hu.2.consistent, rfl, hu.2.content⟩

/-- CONSUME on an empty queue ends after its POP. -/
theorem consume_empty {s : State} (h : Holds s []) (gate : Bool) :
    ∃ t, consume gate s = some (.nothingToDo, t) ∧ Holds t [] := by
  obtain ⟨r, t, ht, hstatus, -, -, hholds⟩ := transact_holds h .K .pop
  simp only [listStep] at hstatus hholds
  exact ⟨t, by simp [consume, ht, hstatus], hholds⟩

/-- CONSUME takes the oldest packet, and delivers it unless the gate stops it. -/
theorem consume_oldest {s : State} {x : Packet} {rest : List Packet} (h : Holds s (x :: rest)) (gate : Bool) :
    ∃ t, consume gate s = some (if gate = true ∧ validUnder Config.checksum x = false then .packetInvalid
      else .packetDelivered x, t) ∧ Holds t rest := by
  obtain ⟨r, t, ht, hstatus, -, hdata, hholds⟩ := transact_holds h .K .pop
  simp only [listStep] at hstatus hdata hholds
  rw [given_eq_some] at hdata
  cases gate with
  | false => exact ⟨t, by simp [consume, ht, hstatus, hdata], hholds⟩
  | true =>
    obtain ⟨v, u, hu, hflag, hholds'⟩ := transact_validate hholds .K x
    refine ⟨u, ?_, hholds'⟩
    cases hv : validUnder Config.checksum x <;> simp [consume, ht, hstatus, hdata, hu, hflag, hv]

/-- Settles O54: by whether there is an oldest packet. -/
theorem consumeDeliversTheOldestPacket : Obligations.ConsumeDeliversTheOldestPacket := by
  intro gate s Q hc hq
  cases Q with
  | nil =>
    obtain ⟨t, ht, hholds⟩ := consume_empty ⟨hc, hq⟩ gate
    exact ⟨_, t, ht, hholds.consistent, rfl, hholds.content⟩
  | cons x rest =>
    obtain ⟨t, ht, hholds⟩ := consume_oldest ⟨hc, hq⟩ gate
    exact ⟨_, t, ht, hholds.consistent, hholds.content, rfl⟩

end Sys2Proof.Machine
end

section
/-! The steps of the machine (60_exceptions.md section 4): what the block does when it linearises a command, the moves a
step can make, and the invariant. -/

namespace Sys2Proof.Machine

namespace State

/-- The state with its next scheduled move taken off. -/
def later (s : State) : State := { s with schedule := s.schedule.tail }

@[simp] theorem later_queue (s : State) : s.later.queue = s.queue := rfl
@[simp] theorem later_serving (s : State) : s.later.serving = s.serving := rfl
@[simp] theorem later_resetAsserted (s : State) : s.later.resetAsserted = s.resetAsserted := rfl
@[simp] theorem later_schedule (s : State) : s.later.schedule = s.schedule.tail := rfl
@[simp] theorem later_draws (s : State) : s.later.draws = s.draws := rfl
@[simp] theorem later_port (s : State) (p : Port) : s.later.port p = s.port p := port_with_schedule ..

theorem later_of_nil {s : State} (hs : s.schedule = []) : s.later = s := by
  rw [later, hs, List.tail_nil, ← hs]

theorem later_of_cons {s : State} {e : Event} {rest : List Event} (hs : s.schedule = e :: rest) :
    s.later = { s with schedule := rest } := by simp [later, hs]

/-- The block's own move is next: the schedule names it, or is empty (log entry 13). -/
abbrev BlockMoves (s : State) : Prop := s.schedule = [] ∨ ∃ rest, s.schedule = .linearise :: rest

/-- The block takes port `p`'s command next: it waits there alone, or the arbiter picks it (R124). -/
abbrev Picks (s : State) (p : Port) : Prop := (s.port p.other).waiting = none ∨ s.arbiter = p

end State

/-! ### Linearising a command -/

/-- Every command completes: only the served port's response, the queue and the draw counter may change. -/
theorem exec_effect (i : Instr) (s : State) : ∃ t r, exec i s = .next t ∧ OnlyAnswers s t ∧
    t.port s.serving = { s.port s.serving with result := some r } := by
  obtain ⟨q, a, he, -⟩ := exec_answers i s
  refine ⟨_, State.response { s with queue := q } a.status a.flag a.size a.data, he, State.onlyAnswers_respond .., ?_⟩
  simpa only [State.port_with_queue] using State.respond_port_serving { s with queue := q } ..

/-- In `u` port `p`'s command is at its linearisation point, and has passed what the other port has outstanding. -/
structure Serves (s : State) (p : Port) (u : State) : Prop where
  queue    : u.queue = s.queue
  serving  : u.serving = p
  reset    : u.resetAsserted = s.resetAsserted
  schedule : u.schedule = s.schedule
  served   : u.port p = { s.port p with losses := 0 }
  passed   : u.port p.other = (s.port p.other).passedOver

theorem serves_serve (s : State) (p : Port) : Serves s p (s.serve p) := by constructor <;> simp

theorem serves_serveFirst (s : State) (p : Port) : Serves s p (s.serveFirst p) := by constructor <;> simp

/-- The step from `s` to `t` linearises command `c` of port `p`. -/
structure Linearises (s : State) (p : Port) (c : Command) (t : State) : Prop where
  awake    : s.resetAsserted = false
  waiting  : (s.port p).waiting = some c
  picked   : s.Picks p
  executed : ∃ u, u.queue = s.queue ∧ u.serving = p ∧ exec (decode c) u = .next t
  serving  : t.serving = p
  reset    : t.resetAsserted = false
  schedule : t.schedule = s.schedule.tail
  served   : ∃ r, t.port p = { s.port p with result := some r, losses := 0 }
  passed   : t.port p.other = (s.port p.other).passedOver

section
variable {s : State} {p : Port} {c : Command} (hr : s.resetAsserted = false)
include hr

theorem nextCommand_of_picks (hw : (s.port p).waiting = some c) (hp : s.Picks p) :
    ∃ u, s.nextCommand = some (c, u) ∧ Serves s p u := by
  by_cases ho : (s.port p.other).waiting = none
  · exact ⟨_, State.nextCommand_alone hr hw ho, serves_serve s p⟩
  · exact ⟨_, State.nextCommand_conflict hr hw (Option.isSome_iff_ne_none.2 ho) (hp.resolve_left ho),
      serves_serveFirst s p⟩

/-- The block's own move runs that command, with its port served. -/
theorem step_serves (hs : s.BlockMoves) (hw : (s.port p).waiting = some c) (hp : s.Picks p) :
    ∃ u, step s = exec (decode c) u ∧ Serves s.later p u := by
  obtain ⟨u, hu, hserves⟩ := nextCommand_of_picks hr hw hp
  refine ⟨_, State.step_block hs hu, hserves.queue, hserves.serving, hserves.reset, rfl, ?_, ?_⟩
  · simpa using hserves.served
  · simpa using hserves.passed

/-- The block's move with a command to linearise (R46, R124). -/
theorem step_linearises (hs : s.BlockMoves) (hw : (s.port p).waiting = some c) (hp : s.Picks p) :
    ∃ t, step s = .next t ∧ Linearises s p c t := by
  obtain ⟨u, hstep, hqueue, rfl, hreset, hschedule, hserved, hpassed⟩ := step_serves hr hs hw hp
  obtain ⟨t, r, he, honly, hport⟩ := exec_effect (decode c) u
  refine ⟨t, hstep.trans he, hr, hw, hp, ⟨u, hqueue, rfl, he⟩, honly.serving, honly.reset.trans (hreset.trans hr),
    honly.schedule.trans hschedule, ⟨r, ?_⟩, ?_⟩
  · rw [hport, hserved, State.later_port]
  · rw [honly.other, hpassed, State.later_port]

end

/-! ### The moves of a step -/

/-- What a step from `s` to `t` can be. -/
inductive StepMove (s t : State) : Prop
  | idle (h : t = s.later)
  | reset (b : Bool) (hs : ∃ rest, s.schedule = .reset b :: rest)
      (h : t = if b then s.later.assertReset else s.later.releaseReset)
  | present (p : Port) (c : Command) (hr : s.resetAsserted = false) (hl : (s.port p).latch = none)
      (h : t = s.later.setPort p { s.port p with latch := some c })
  | linearise (p : Port) (c : Command) (h : Linearises s p c t)
  | deliver (p : Port) (hr : s.resetAsserted = false) (h : t = s.later.setPort p (s.port p).delivered)

theorem stepMove_deliver (s : State) (p : Port) : StepMove s (s.later.deliver p) := by
  unfold State.deliver
  split
  · exact .idle rfl
  next hr => exact .deliver p (by simpa using hr) (by simp)

theorem stepMove_deliverAny {s : State} (hs : s.schedule = []) : StepMove s s.deliverAny := by
  have h : ∀ p, StepMove s (s.deliver p) := fun p => by
    simpa only [State.later_of_nil hs] using stepMove_deliver s p
  unfold State.deliverAny
  split
  · exact h .P
  · exact h .K

theorem stepMove_of_nextCommand {s t u : State} {c : Command} (hs : s.BlockMoves) (hn : s.nextCommand = some (c, u))
    (h : step s = .next t) : StepMove s t := by
  obtain ⟨hr, p, hw, hcases⟩ := State.nextCommand_cases hn
  have hp : s.Picks p := by
    obtain ⟨ho, -⟩ | ⟨d, -, ha, -⟩ := hcases
    · exact .inl ho
    · exact .inr ha
  obtain ⟨t', ht', hlin⟩ := step_linearises hr hs hw hp
  cases h.symm.trans ht'
  exact .linearise p c hlin

theorem stepMove_present {s t : State} {p : Port} {c : Command} (h : s.later.present p c = .next t) : StepMove s t := by
  unfold State.present at h
  split at h
  · cases h; exact .idle rfl
  next hr =>
    split at h
    next hl => cases h; exact .present p c (by simpa using hr) (by simpa using hl) (by simp)
    next => cases h

theorem drive_eq_next {s t : State} {p : Port} {g : Option Command} (h : s.drive p g = .next t) : t = s := by
  unfold State.drive at h
  split at h
  · cases h; rfl
  · split at h <;> cases h
    rfl

theorem readField_eq_next {s t : State} {p : Port} {f : Field} (h : s.readField p f = .next t) : t = s := by
  unfold State.readField at h
  split at h
  · cases h
  · split at h <;> cases h
    rfl

/-- The block's move with nothing to linearise. -/
theorem step_of_nextCommand_none {s : State} (hn : s.nextCommand = none) :
    (s.schedule = [] → step s = .next s.deliverAny) ∧
    (∀ rest, s.schedule = .linearise :: rest → step s = .next s.later) := by
  have hlater : s.later.nextCommand = none := by simp [State.later, State.nextCommand_with_schedule, hn]
  refine ⟨fun hs => by simp [step, State.action_nil hs, State.runOr, hn], fun rest hs => ?_⟩
  simp [step, State.action_cons hs, ← State.later_of_cons hs, State.event, State.runOr, hlater]

/-- The inversion of `step`: every next state comes by one of the moves. -/
theorem step_move {s t : State} (h : step s = .next t) : StepMove s t := by
  by_cases hb : s.BlockMoves
  · cases hn : s.nextCommand with
    | some cu => exact stepMove_of_nextCommand hb hn h
    | none =>
      obtain hs | ⟨rest, hs⟩ := hb
      · cases h.symm.trans ((step_of_nextCommand_none hn).1 hs)
        exact stepMove_deliverAny hs
      · cases h.symm.trans ((step_of_nextCommand_none hn).2 rest hs)
        exact .idle rfl
  · obtain ⟨e, rest, hs⟩ := List.exists_cons_of_ne_nil fun hnil => hb (.inl hnil)
    rw [step, State.action_cons hs, ← State.later_of_cons hs] at h
    cases e with
    | present p c => exact stepMove_present h
    | drive p g => exact .idle (drive_eq_next h)
    | read p f => exact .idle (readField_eq_next h)
    | reset b => cases b <;> cases h <;> exact .reset _ ⟨rest, hs⟩ rfl
    | powerLoss => cases h
    | linearise => exact absurd (.inr ⟨rest, hs⟩) hb
    | deliver p => cases h; exact stepMove_deliver s p

/-! ### The invariant -/

theorem PortState.Consistent.delivered {ps : PortState} (h : ps.Consistent) :
    ps.delivered.Consistent ∧ ps.delivered.losses ≤ ps.losses := by
  cases hr : ps.result with
  | none =>
    have hsame : ps.delivered = ps := by simp [PortState.delivered, hr]
    rw [hsame]
    exact ⟨h, Nat.le_refl _⟩
  | some r =>
    rw [PortState.delivered_of_result hr]
    exact ⟨⟨nofun, fun _ => rfl⟩, Nat.zero_le _⟩

/-- A port passed by a command of the other port stays consistent, and is passed at most once above the bound, if its own
command was not passed more often than the bound while it waited (R124). -/
theorem PortState.Consistent.passedOver {ps : PortState} (h : ps.Consistent)
    (hw : ps.waiting.isSome = true → ps.losses ≤ Config.arbPatience) :
    ps.passedOver.Consistent ∧ ps.passedOver.losses ≤ Config.arbPatience + 1 := by
  obtain ⟨hl, hr, he⟩ | ⟨hsome, hdue, he⟩ | ⟨r, hr, hb, he⟩ := ps.passedOver_cases
  · rw [he]
    exact ⟨h, by simp [h.calm hl]⟩
  · have hlatch : ps.latch.isSome = true := hsome.elim id h.due
    have hle : ps.losses ≤ Config.arbPatience := by
      cases hr : ps.result with
      | none => exact hw (by simpa [PortState.waiting, hr] using hlatch)
      | some r => exact hdue (by simp [hr])
    rw [he]
    exact ⟨⟨h.due, fun hnone => absurd hnone (Option.isSome_iff_ne_none.1 hlatch)⟩, Nat.succ_le_succ hle⟩
  · rw [he]
    exact ⟨⟨nofun, fun _ => rfl⟩, Nat.zero_le _⟩

/-- The arbiter passes over no command that has lost more conflicts than the bound, unless the other one has too. -/
theorem losses_le_of_arbiter {s : State} {p : Port} (hone : s.portP.losses = 0 ∨ s.portK.losses = 0)
    (ha : s.arbiter = p) : (s.port p.other).losses ≤ Config.arbPatience := by
  unfold State.arbiter at ha
  split at ha
  next hK =>
    subst ha
    have : s.portP.losses = 0 := hone.resolve_right (Nat.ne_of_gt (Nat.zero_lt_of_lt hK))
    simp [this]
  next hK =>
    split at ha
    · subst ha
      exact Nat.not_lt.1 hK
    next hP =>
      cases p
      · exact Nat.not_lt.1 hK
      · exact Nat.not_lt.1 hP

namespace State.Inv

variable {s : State} (h : s.Inv)
include h

theorem port (p : Port) : (s.port p).Consistent := by
  cases p
  · exact h.portP
  · exact h.portK

theorem fair (p : Port) : (s.port p).losses ≤ Config.arbPatience + 1 := by
  cases p
  · exact h.fairP
  · exact h.fairK

theorem later : s.later.Inv := ⟨h.queue, h.portP, h.portK, h.quiet, h.oneLoser, h.fairP, h.fairK⟩

/-- A command that the block passes over has lost no more conflicts than the bound. -/
theorem losses_le_of_picks {p : Port} (hp : s.Picks p) (hw : (s.port p.other).waiting.isSome = true) :
    (s.port p.other).losses ≤ Config.arbPatience := by
  obtain hn | ha := hp
  · simp [hn] at hw
  · exact losses_le_of_arbiter h.oneLoser ha

/-- Writing one port keeps the invariant when the port stays consistent, empty under reset, and passed no more often. -/
theorem setPort (p : Port) {ps : PortState} (hc : ps.Consistent) (hq : s.resetAsserted = true → ps.latch = none)
    (hl : ps.losses ≤ (s.port p).losses) : (s.setPort p ps).Inv := by
  have hfair := hl.trans (h.fair p)
  have hzero : (s.port p).losses = 0 → ps.losses = 0 := fun h0 => Nat.le_zero.1 (h0 ▸ hl)
  cases p
  · exact ⟨h.queue, hc, h.portK, fun hr => ⟨hq hr, (h.quiet hr).2⟩, h.oneLoser.imp_left hzero, hfair, h.fairK⟩
  · exact ⟨h.queue, h.portP, hc, fun hr => ⟨(h.quiet hr).1, hq hr⟩, h.oneLoser.imp_right hzero, h.fairP, hfair⟩

omit h in
/-- Asserting reset brings the invariant about from any state. -/
theorem assertReset : s.assertReset.Inv where
  queue := Queue.consistent_reset s.queue
  portP := ⟨nofun, fun _ => rfl⟩
  portK := ⟨nofun, fun _ => rfl⟩
  quiet := fun _ => ⟨rfl, rfl⟩
  oneLoser := .inl rfl
  fairP := Nat.zero_le _
  fairK := Nat.zero_le _

theorem releaseReset : s.releaseReset.Inv := ⟨h.queue, h.portP, h.portK, nofun, h.oneLoser, h.fairP, h.fairK⟩

end State.Inv

/-- The invariant from what holds of one port, which was passed by no command, and of the other. -/
theorem inv_of_ports {s : State} (p : Port) (hq : s.queue.Consistent) (hr : s.resetAsserted = false)
    (hp : (s.port p).Consistent) (h0 : (s.port p).losses = 0) (ho : (s.port p.other).Consistent)
    (hfair : (s.port p.other).losses ≤ Config.arbPatience + 1) : s.Inv := by
  have hfair0 : (s.port p).losses ≤ Config.arbPatience + 1 := h0 ▸ Nat.zero_le _
  have hquiet : s.resetAsserted = true → s.portP.latch = none ∧ s.portK.latch = none := by simp [hr]
  cases p
  · exact ⟨hq, hp, ho, hquiet, .inl h0, hfair0, hfair⟩
  · exact ⟨hq, ho, hp, hquiet, .inr h0, hfair, hfair0⟩

theorem exec_queueMove {i : Instr} {s t : State} (h : exec i s = .next t) : QueueMove s.serving i s.queue t.queue := by
  obtain ⟨q, a, he, hmove⟩ := exec_answers i s
  cases h.symm.trans he
  rwa [State.respond_queue]

theorem QueueMove.consistent {p : Port} {i : Instr} {q q' : Queue Config.capacity Packet} (h : QueueMove p i q q')
    (hc : q.Consistent) : q'.Consistent := by
  cases h with
  | same h => exact h ▸ hc
  | push v _ _ h => exact Queue.consistent_push hc h
  | pop v _ _ h => exact Queue.consistent_pop hc h

theorem Linearises.inv {s t : State} {p : Port} {c : Command} (h : Linearises s p c t) (hi : s.Inv) : t.Inv := by
  obtain ⟨u, hqueue, -, he⟩ := h.executed
  obtain ⟨r, hserved⟩ := h.served
  obtain ⟨hlatch, -⟩ := State.waiting_eq_some.1 h.waiting
  obtain ⟨hother, hfair⟩ := (hi.port p.other).passedOver (hi.losses_le_of_picks h.picked)
  rw [← h.passed] at hother hfair
  refine inv_of_ports p ((exec_queueMove he).consistent (hqueue ▸ hi.queue)) h.reset ?_ ?_ hother hfair
  · rw [hserved]
    exact ⟨fun _ => by simp [hlatch], fun _ => rfl⟩
  · rw [hserved]

/-- Settles O38: the queue at reset is the fresh one, and the ports are empty. -/
theorem invariantHoldsAtReset : Obligations.InvariantHoldsAtReset where
  queue := reset_queue_eq_fresh ▸ Queue.consistent_fresh _
  portP := ⟨nofun, fun _ => rfl⟩
  portK := ⟨nofun, fun _ => rfl⟩
  quiet := nofun
  oneLoser := .inl rfl
  fairP := Nat.zero_le _
  fairK := Nat.zero_le _

theorem StepMove.inv {s t : State} (h : StepMove s t) (hi : s.Inv) : t.Inv := by
  cases h with
  | idle h => exact h ▸ hi.later
  | reset b _ h =>
    cases b
    · exact h ▸ hi.later.releaseReset
    · exact h ▸ State.Inv.assertReset
  | present p c hr hl h =>
    subst h
    exact hi.later.setPort p ⟨fun _ => rfl, nofun⟩ (by simp [hr]) (by simp)
  | linearise p c h => exact h.inv hi
  | deliver p hr h =>
    subst h
    obtain ⟨hc, hle⟩ := (hi.port p).delivered
    exact hi.later.setPort p hc (by simp [hr]) (by simpa using hle)

/-- Settles O39: move by move. -/
theorem stepKeepsInvariant : Obligations.StepKeepsInvariant := fun _ _ hi h => (step_move h).inv hi

end Sys2Proof.Machine
end

section
/-! Slots outside the occupied window (10_state.md section 3): two states that differ in them alone behave alike. -/

namespace Sys2Proof.Machine

namespace Queue.AgreesOnWindow

variable {C : Nat} {T : Type} {q r q' : Queue C T} (h : q.AgreesOnWindow r)
include h

theorem slot_eq (i : Nat) : r.slot i = q.slot i := Fin.ext (by simp [h.1])

/-- The content lies in the window. -/
theorem content_eq : q.content = r.content := by
  obtain ⟨-, -, hlength, hread⟩ := id h
  rw [content, content, ← hlength]
  exact List.map_congr_left fun i hi => by rw [hread i (List.mem_range.1 hi), h.slot_eq]

theorem push_eq_none (v : T) : q.push v = none ↔ r.push v = none := by
  obtain ⟨-, -, hlength, -⟩ := h
  rw [Queue.push_eq_none, Queue.push_eq_none, hlength]

theorem pop_eq_none : q.pop = none ↔ r.pop = none := by
  obtain ⟨-, -, hlength, -⟩ := h
  rw [Queue.pop_eq_none, Queue.pop_eq_none, hlength]

/-- A PUSH writes the same slot of both, which joins the window. -/
theorem push {v : T} (hc : q.Consistent) (hq : q.push v = some q') :
    ∃ r', r.push v = some r' ∧ q'.AgreesOnWindow r' := by
  obtain ⟨r', hr⟩ := Option.ne_none_iff_exists'.1 (mt (h.push_eq_none v).2 (by simp [hq]))
  obtain ⟨hhead, htail, hlength, hread⟩ := id h
  obtain ⟨-, qhead, qtail, qlength, qread⟩ := push_eq_some hq
  obtain ⟨-, rhead, rtail, rlength, rread⟩ := push_eq_some hr
  refine ⟨r', hr, by rw [qhead, rhead, hhead], Fin.ext (by rw [qtail, rtail, htail]),
    Fin.ext (by rw [qlength, rlength, hlength]), fun i hi => ?_⟩
  rw [slot_push hq, qread, rread, htail]
  split
  · rfl
  next hne =>
    refine hread i (Nat.lt_of_le_of_ne (by omega) ?_)
    rintro rfl
    exact hne ((slot_length hc).trans htail)

/-- A POP reads the same slot of both, which leaves the window. -/
theorem pop {v : Option T} (hq : q.pop = some (v, q')) : ∃ r', r.pop = some (v, r') ∧ q'.AgreesOnWindow r' := by
  obtain ⟨⟨x, r'⟩, hr⟩ := Option.ne_none_iff_exists'.1 (mt h.pop_eq_none.2 (by simp [hq]))
  obtain ⟨hhead, htail, hlength, hread⟩ := id h
  obtain ⟨hpos, hv, qhead, qtail, qlength, qread⟩ := pop_eq_some hq
  obtain ⟨-, hx, rhead, rtail, rlength, rread⟩ := pop_eq_some hr
  have hvx : v = x := by rw [hv, hx, ← hhead, ← slot_zero]; exact hread 0 hpos
  refine ⟨r', hvx ▸ hr, Fin.ext (by rw [qhead, rhead, hhead]), by rw [qtail, rtail, htail],
    Fin.ext (by rw [qlength, rlength, hlength]), fun i hi => ?_⟩
  rw [slot_pop hq, qread, rread]
  exact hread (i + 1) (by omega)

end Queue.AgreesOnWindow

/-- Two outcomes that differ at most in stale slots: two next states, the first with a consistent queue, or one refusal. -/
inductive Alike (o o' : Host.Outcome State Fault Refusal) : Prop
  | next (t : State) (r : Queue Config.capacity Packet) (ho : o = .next t) (ho' : o' = .next { t with queue := r })
      (hc : t.queue.Consistent) (ha : t.queue.AgreesOnWindow r)
  | refused (r : Refusal) (ho : o = .refused r) (ho' : o' = .refused r)

/-- A response says nothing of the queue. -/
theorem State.respond_with_queue (s : State) (q : Queue Config.capacity Packet) (st : Status) (f : Bool)
    (sz : Option (BitVec Config.lenW)) (d : Option Packet) :
    ({ s with queue := q } : State).respond st f sz d = { s.respond st f sz d with queue := q } := by
  obtain ⟨_, _, _, p, _, _, _⟩ := s
  cases p <;> rfl

section
variable {s : State} {r : Queue Config.capacity Packet}

/-- A command that responds alike in both states, and leaves queues that agree, keeps them alike. -/
theorem alike_of_queue_respond {i : Instr} {q q' : Queue Config.capacity Packet} {st : Status} {f : Bool}
    {sz : Option (BitVec Config.lenW)} {d : Option Packet} (hq : q.Consistent) (hqq : q.AgreesOnWindow q')
    (h : exec i s = .next (({ s with queue := q } : State).respond st f sz d))
    (h' : exec i { s with queue := r } = .next (({ s with queue := q' } : State).respond st f sz d)) :
    Alike (exec i s) (exec i { s with queue := r }) := by
  refine .next _ q' h (h'.trans ?_) (by rwa [State.respond_queue]) (by rwa [State.respond_queue])
  rw [State.respond_with_queue s q, State.respond_with_queue s q']

variable (hc : s.queue.Consistent) (ha : s.queue.AgreesOnWindow r)
include hc ha

/-- A command that only responds, and with the same response in both states, keeps them alike. -/
theorem alike_of_respond {i : Instr} {st : Status} {f : Bool} {sz : Option (BitVec Config.lenW)} {d : Option Packet}
    (h : exec i s = .next (s.respond st f sz d))
    (h' : exec i { s with queue := r } = .next (({ s with queue := r } : State).respond st f sz d)) :
    Alike (exec i s) (exec i { s with queue := r }) := alike_of_queue_respond hc ha h h'

theorem alike_of_failure {i : Instr} (st : Status) (h : failure s i = some st)
    (h' : failure { s with queue := r } i = some st) : Alike (exec i s) (exec i { s with queue := r }) :=
  alike_of_respond hc ha (exec_of_failure h) (exec_of_failure h')

theorem exec_push_alike (v : Packet) : Alike (exec (.push v) s) (exec (.push v) { s with queue := r }) := by
  by_cases hK : s.serving = .K
  · exact alike_of_failure hc ha .illegalCommand (by simp [failure, hK]) (by simp [failure, hK])
  · have hp : s.serving = .P := Port_ne_K.1 hK
    cases hq : s.queue.push v with
    | none =>
      have hr := (ha.push_eq_none v).1 hq
      rw [Queue.push_eq_none] at hq hr
      exact alike_of_failure hc ha .queueFull (by simp [failure, hp, hq]) (by simp [failure, hp, hr])
    | some q =>
      obtain ⟨q', hr, hqq⟩ := ha.push hc hq
      exact alike_of_queue_respond (Queue.consistent_push hc hq) hqq (exec_push_of_some hp hq)
        (exec_push_of_some (s := { s with queue := r }) hp hr)

theorem exec_pop_alike : Alike (exec .pop s) (exec .pop { s with queue := r }) := by
  by_cases hP : s.serving = .P
  · exact alike_of_failure hc ha .illegalCommand (by simp [failure, hP]) (by simp [failure, hP])
  · have hp : s.serving = .K := Port_ne_P.1 hP
    cases hq : s.queue.pop with
    | none =>
      have hr := ha.pop_eq_none.1 hq
      rw [Queue.pop_eq_none] at hq hr
      exact alike_of_failure hc ha .queueEmpty (by simp [failure, hp, hq]) (by simp [failure, hp, hr])
    | some vq =>
      obtain ⟨q', hr, hqq⟩ := ha.pop hq
      exact alike_of_queue_respond (Queue.consistent_pop hc hq) hqq (exec_pop_of_some hp hq)
        (exec_pop_of_some (s := { s with queue := r }) hp hr)

theorem exec_alike (i : Instr) : Alike (exec i s) (exec i { s with queue := r }) := by
  obtain ⟨-, -, hlength, -⟩ := id ha
  cases i with
  | decode len data =>
    obtain ⟨a, hexec⟩ := exec_codec_answer (.inl ⟨len, data, rfl⟩)
    exact alike_of_respond hc ha (hexec s) (hexec { s with queue := r })
  | validate p =>
    obtain ⟨a, hexec⟩ := exec_codec_answer (.inr ⟨p, rfl⟩)
    exact alike_of_respond hc ha (hexec s) (hexec { s with queue := r })
  | push v => exact exec_push_alike hc ha v
  | pop => exact exec_pop_alike hc ha
  | isEmpty =>
    have h : r.isEmpty = s.queue.isEmpty := by rw [Queue.isEmpty, ← hlength]; rfl
    exact alike_of_respond hc ha (exec_isEmpty s) (h ▸ exec_isEmpty { s with queue := r })
  | isFull =>
    have h : r.isFull = s.queue.isFull := by rw [Queue.isFull, ← hlength]; rfl
    exact alike_of_respond hc ha (exec_isFull s) (h ▸ exec_isFull { s with queue := r })
  | size =>
    have h : sizeField r = sizeField s.queue := by rw [sizeField, ← hlength]; rfl
    exact alike_of_respond hc ha (exec_size s) (h ▸ exec_size { s with queue := r })
  | reserved => exact alike_of_failure hc ha .illegalCommand rfl rfl

end

/-! ### The moves of the block -/

section
variable (s : State) (r : Queue Config.capacity Packet)

/-- Which command is next does not depend on the queue. -/
theorem nextCommand_with_queue : ({ s with queue := r } : State).nextCommand =
    s.nextCommand.map fun cu => (cu.1, { cu.2 with queue := r }) := by
  have harbiter : ({ s with queue := r } : State).arbiter = s.arbiter := rfl
  simp only [State.nextCommand]
  split
  · rfl
  · cases s.portP.waiting <;> cases s.portK.waiting
    case some.some => rw [harbiter]; cases s.arbiter <;> rfl
    all_goals rfl

theorem deliver_with_queue (p : Port) :
    ({ s with queue := r } : State).deliver p = { s.deliver p with queue := r } := by
  unfold State.deliver
  split
  · rfl
  · cases p <;> rfl

/-- After reset no slot lies in the window. -/
theorem assertReset_alike : Alike (.next s.assertReset) (.next ({ s with queue := r } : State).assertReset) :=
  .next s.assertReset r.reset rfl rfl (Queue.consistent_reset s.queue) ⟨rfl, rfl, rfl, fun _ hi => nomatch hi⟩

end

section
variable {s : State} {r : Queue Config.capacity Packet} (hc : s.queue.Consistent) (ha : s.queue.AgreesOnWindow r)
include hc ha

theorem alike_self : Alike (.next s) (.next { s with queue := r }) := .next s r rfl rfl hc ha

theorem deliver_alike (p : Port) : Alike (.next (s.deliver p)) (.next (({ s with queue := r } : State).deliver p)) := by
  have hqueue : (s.deliver p).queue = s.queue := by unfold State.deliver; split <;> simp
  exact .next _ r rfl (by rw [deliver_with_queue]) (hqueue ▸ hc) (hqueue ▸ ha)

theorem step_block_alike (hb : s.BlockMoves) : Alike (step s) (step { s with queue := r }) := by
  have hb' : ({ s with queue := r } : State).BlockMoves := hb
  cases hn : s.nextCommand with
  | some cu =>
    obtain ⟨c, u⟩ := cu
    have hn' : ({ s with queue := r } : State).nextCommand = some (c, { u with queue := r }) := by
      rw [nextCommand_with_queue, hn]; rfl
    obtain ⟨-, p, -, hu⟩ := State.nextCommand_cases hn
    have hqueue : u.queue = s.queue := by
      obtain ⟨-, rfl⟩ | ⟨_, -, -, rfl⟩ := hu
      · exact State.serve_queue s p
      · exact State.serveFirst_queue s p
    rw [State.step_block hb hn, State.step_block hb' hn']
    exact exec_alike (s := { u with schedule := s.schedule.tail }) (hqueue ▸ hc) (hqueue ▸ ha) (decode c)
  | none =>
    have hn' : ({ s with queue := r } : State).nextCommand = none := by rw [nextCommand_with_queue, hn]; rfl
    obtain hs | ⟨rest, hs⟩ := hb
    · rw [(step_of_nextCommand_none hn).1 hs, (step_of_nextCommand_none hn').1 hs]
      unfold State.deliverAny
      split
      · exact deliver_alike hc ha .P
      · exact deliver_alike hc ha .K
    · rw [(step_of_nextCommand_none hn).2 rest hs, (step_of_nextCommand_none hn').2 rest hs]
      exact alike_self (s := s.later) hc ha

/-! ### The moves of the hosts and of the reset source -/

theorem present_alike (p : Port) (c : Command) : Alike (s.present p c) (({ s with queue := r } : State).present p c) := by
  simp only [State.present, State.port_with_queue]
  split
  · exact alike_self hc ha
  · split
    · refine .next _ r rfl ?_ (by rwa [State.setPort_queue]) (by rwa [State.setPort_queue])
      cases p <;> rfl
    · exact .refused _ rfl rfl

theorem drive_alike (p : Port) (g : Option Command) :
    Alike (s.drive p g) (({ s with queue := r } : State).drive p g) := by
  simp only [State.drive, State.port_with_queue]
  split
  · exact alike_self hc ha
  · split
    · exact alike_self hc ha
    · exact .refused _ rfl rfl

theorem readField_alike (p : Port) (f : Field) :
    Alike (s.readField p f) (({ s with queue := r } : State).readField p f) := by
  simp only [State.readField, State.port_with_queue]
  split
  · exact .refused _ rfl rfl
  · split
    · exact .refused _ rfl rfl
    · exact alike_self hc ha

theorem step_alike : Alike (step s) (step { s with queue := r }) := by
  by_cases hb : s.BlockMoves
  · exact step_block_alike hc ha hb
  · obtain ⟨e, rest, hs⟩ := List.exists_cons_of_ne_nil fun hnil => hb (.inl hnil)
    have hs' : ({ s with queue := r } : State).schedule = e :: rest := hs
    rw [step, step, State.action_cons hs, State.action_cons hs']
    cases e with
    | present p c => exact present_alike (s := { s with schedule := rest }) hc ha p c
    | drive p g => exact drive_alike (s := { s with schedule := rest }) hc ha p g
    | read p f => exact readField_alike (s := { s with schedule := rest }) hc ha p f
    | reset b =>
      cases b with
      | true => exact assertReset_alike { s with schedule := rest } r
      | false => exact alike_self (s := { s with schedule := rest, resetAsserted := false }) hc ha
    | powerLoss => exact .refused .powerLost rfl rfl
    | linearise => exact absurd (.inr ⟨rest, hs⟩) hb
    | deliver p => exact deliver_alike (s := { s with schedule := rest }) hc ha p

end

/-- Settles O52: a stale slot is in no content, and by `step_alike` it stays stale. -/
theorem staleSlotsAreUnobservable : Obligations.StaleSlotsAreUnobservable := by
  rintro s u hc ⟨ha, hu⟩
  have hstep := step_alike hc ha
  rw [hu] at hstep
  refine ⟨?_, ?_⟩
  · rw [← hu]
    exact congrArg₂ (Observation.mk _ _) ha.content_eq (congrArg Fin.val ha.2.2.1)
  · cases hstep with
    | next t r ht hw hct hat => exact .inl ⟨t, _, ht, hw, hct, hat, rfl⟩
    | refused r ht hw => exact .inr ⟨r, ht, hw⟩

end Sys2Proof.Machine
end

section
/-! The port protocol (60_exceptions.md sections 3 to 5): the moves of the hosts, the refusals, and the order in which
commands are linearised. -/

namespace Sys2Proof.Machine

/-! ### Runs of a few steps -/

theorem run_of_step {s t : State} (n : Nat) (h : step s = .next t) : core.run (n + 1) s = core.run n t := by
  simp [Host.Core.run, core, h]

/-! ### The moves of the hosts -/

namespace State

variable {s : State} {p : Port}

theorem present_of_free (c : Command) (hr : s.resetAsserted = false) (hl : (s.port p).latch = none) :
    s.present p c = .next (s.setPort p { s.port p with latch := some c }) := by
  simp [present, hr, hl]

theorem drive_of_held {g : Option Command} (h : (s.port p).latch = none ∨ (s.port p).latch = g) :
    s.drive p g = .next s := by
  unfold drive
  split
  · rfl
  next c hc =>
    have hg : g = some c := (h.resolve_left (by simp [hc])).symm.trans hc
    rw [if_pos hg]

/-- A field is UNSPEC when the answer does not give it (R70). -/
theorem unspecField_iff {a : Response} {f : Field} : unspecField a f = true ↔
    (f = .size ∧ a.answer.size = none) ∨ (f = .data ∧ a.answer.data = none) := by
  cases f with
  | status => simp [unspecField]
  | flag => simp [unspecField]
  | size => cases h : a.size <;> simp [unspecField, Response.answer, Driven.given, h]
  | data => cases h : a.data <;> simp [unspecField, Response.answer, Driven.given, h]

theorem readField_of_given {f : Field} {a : Response} {older : List Response} (h : (s.port p).responses = a :: older)
    (hsize : f = .size → a.answer.size.isSome = true) (hdata : f = .data → a.answer.data.isSome = true) :
    s.readField p f = .next s := by
  have hgiven : ¬ unspecField a f = true := by
    rw [unspecField_iff]
    rintro (⟨hf, hnone⟩ | ⟨hf, hnone⟩)
    · simpa [hnone] using hsize hf
    · simpa [hnone] using hdata hf
  simp [readField, h, hgiven]

/-! ### Refusals -/

variable (s p) (r : Refusal)

theorem present_eq_refused (c : Command) : s.present p c = .refused r ↔
    s.resetAsserted = false ∧ (s.port p).latch.isSome = true ∧ r = .secondCommand p := by
  unfold present
  split
  · simp [*]
  · split <;> simp [*, eq_comm (b := r)]

theorem drive_eq_refused (g : Option Command) : s.drive p g = .refused r ↔
    ∃ c, (s.port p).latch = some c ∧ g ≠ some c ∧ r = .operandsChanged p := by
  unfold drive
  split
  · simp [*]
  · split <;> simp [*, eq_comm (b := r)]

theorem readField_eq_refused (f : Field) : s.readField p f = .refused r ↔
    (∃ a as, (s.port p).responses = a :: as ∧ r = .unspecRead p f ∧
      ((f = .size ∧ a.answer.size = none) ∨ (f = .data ∧ a.answer.data = none))) ∨
    ((s.port p).responses = [] ∧ r = .noResponse p f) := by
  unfold readField
  split
  · simp [*, eq_comm (b := r)]
  · simp only [← unspecField_iff]
    split <;> simp [*, eq_comm (b := r)]

end State

/-- The block's own move is never refused. -/
theorem step_block_ne_refused {s : State} (hb : s.BlockMoves) (r : Refusal) : step s ≠ .refused r := by
  cases hn : s.nextCommand with
  | some cu =>
    obtain ⟨t, _, he, -⟩ := exec_effect (decode cu.1) { cu.2 with schedule := s.schedule.tail }
    simp [State.step_block hb hn, he]
  | none =>
    obtain hs | ⟨rest, hs⟩ := hb
    · simp [(step_of_nextCommand_none hn).1 hs]
    · simp [(step_of_nextCommand_none hn).2 rest hs]

/-- Settles O47: event by event; the block's own moves are never refused. -/
theorem onlyBreachesOfDutyAreRefused : Obligations.OnlyBreachesOfDutyAreRefused := by
  intro s r
  cases hs : s.schedule with
  | nil => simp [step_block_ne_refused (.inl hs)]
  | cons e rest =>
    have hstep : ∀ {o}, ({ s with schedule := rest } : State).event e = .settle o → step s = o := step_of_event hs
    cases e with
    | present p c => rw [hstep rfl, State.present_eq_refused]; simp
    | drive p g => rw [hstep rfl, State.drive_eq_refused]; simp
    | read p f => rw [hstep rfl, State.readField_eq_refused]; simp
    | reset b => cases b <;> simp [hstep rfl]
    | powerLoss => simp [hstep rfl, eq_comm (b := r)]
    | linearise => simp [step_block_ne_refused (.inr ⟨rest, hs⟩)]
    | deliver p => simp [hstep rfl]

/-! ### What one move leaves -/

/-- A scheduled move that runs no command, seen from the state with the move taken off. -/
theorem step_of_later {s : State} {e : Event} {rest : List Event} {o : Host.Outcome State Fault Refusal}
    (hs : s.schedule = e :: rest) (he : s.later.event e = .settle o) : step s = o := by
  rw [State.later_of_cons hs] at he
  exact step_of_event hs he

theorem step_deliver {s : State} {p : Port} {rest : List Event} (hr : s.resetAsserted = false)
    (hs : s.schedule = .deliver p :: rest) : step s = .next (s.later.setPort p (s.port p).delivered) :=
  step_of_later hs (by simp [State.event, State.deliver, hr])

/-- A command presented on a port that has none outstanding is latched. -/
theorem step_present {s : State} {p : Port} {c : Command} {rest : List Event} (hr : s.resetAsserted = false)
    (hl : (s.port p).latch = none) (hs : s.schedule = .present p c :: rest) :
    step s = .next (s.later.setPort p { s.port p with latch := some c }) := by
  have hpresent := State.present_of_free (s := s.later) c hr (by simpa using hl)
  exact step_of_later hs (by simp [State.event, hpresent])

/-- Settles O41: the port is the delivered one. -/
theorem deliverPresentsOneResponse : Obligations.DeliverPresentsOneResponse := by
  intro s p r rest hr hs hres
  refine ⟨_, step_deliver hr hs, ?_⟩
  simp [PortState.delivered_of_result hres, hr, hs]

@[simp] theorem State.releaseReset_port (s : State) (p : Port) : s.releaseReset.port p = s.port p :=
  State.port_with_resetAsserted ..
@[simp] theorem State.releaseReset_queue (s : State) : s.releaseReset.queue = s.queue := rfl
@[simp] theorem State.releaseReset_schedule (s : State) : s.releaseReset.schedule = s.schedule := rfl
@[simp] theorem State.releaseReset_resetAsserted (s : State) : s.releaseReset.resetAsserted = false := rfl

/-- Settles O55: the step is the release, and the port then takes a `present`. -/
theorem releasedResetOpensBothPorts : Obligations.ReleasedResetOpensBothPorts := by
  intro s rest hs
  have hrelease : step s = .next s.later.releaseReset := step_of_later hs rfl
  refine ⟨by rw [hrelease, State.later_of_cons hs]; rfl, fun p c more hrest hl => ?_⟩
  have hpresent := step_present (s := s.later.releaseReset) (p := p) (c := c) (rest := more) rfl (by simpa using hl)
    (by simp [hs, hrest])
  refine ⟨_, (run_of_step 1 hrelease).trans (run_of_step 0 hpresent), ?_⟩
  simp [hs, hrest]

/-- Settles O56: each `present` latches its command and leaves the other port. -/
theorem presentedCommandIsLatched : Obligations.PresentedCommandIsLatched := by
  refine ⟨fun s p c rest hr hl hs => ⟨_, step_present hr hl hs, by simp [hr, hs]⟩, ?_⟩
  rintro s p c d rest hr ⟨hl, hres, -⟩ ⟨hol, hores, -⟩ hs
  have hsecond := step_present (s := s.later.setPort p { s.port p with latch := some c }) (p := p.other) (c := d)
    (rest := rest) (by simpa using hr) (by simpa using hol) (by simp [hs])
  refine ⟨_, (run_of_step 1 (step_present hr hl hs)).trans (run_of_step 0 hsecond), ?_⟩
  simp [State.waiting_eq_some, hres, hores, hr, hs]

/-- Settles O57: both moves leave the state. -/
theorem allowedHostMovesChangeNothing : Obligations.AllowedHostMovesChangeNothing := by
  refine fun s rest => ⟨fun p g hs hheld => ?_, fun p f a older hs hresp hsize hdata => ?_⟩
  · rw [← State.later_of_cons hs]
    exact step_of_later hs (congrArg Action.settle (State.drive_of_held (by simpa using hheld)))
  · rw [← State.later_of_cons hs]
    exact step_of_later hs (congrArg Action.settle (State.readField_of_given (by simpa using hresp) hsize hdata))

/-! ### The order of linearisation -/

/-- Settles O40: the command alone, or the arbiter's choice, is the next one. -/
theorem stepRunsTheWaitingCommand : Obligations.StepRunsTheWaitingCommand := by
  intro s p c hr hw
  have hw' : ∀ l, (({ s with schedule := l } : State).port p).waiting = some c := by simpa using hw
  refine ⟨fun ho => ⟨fun hs => ?_, fun rest hs => ?_⟩, fun ho ha => ⟨fun hs => ?_, fun rest hs => ?_⟩⟩
  · exact State.step_eq_exec (.inr ⟨rfl, State.action_nil hs⟩) (State.nextCommand_alone hr hw ho)
  · exact State.step_eq_exec (.inl (State.action_cons hs)) (State.nextCommand_alone hr (hw' rest) (by simpa using ho))
  · exact State.step_eq_exec (.inr ⟨rfl, State.action_nil hs⟩) (State.nextCommand_conflict hr hw ho ha)
  · exact State.step_eq_exec (.inl (State.action_cons hs))
      (State.nextCommand_conflict hr (hw' rest) (by simpa using ho) ha)

section
variable {s t : State} {p : Port} {c : Command} (h : Linearises s p c t)
include h

/-- A linearised command has its response due and waits no more. -/
theorem Linearises.result_isSome : (t.port p).result.isSome = true := by
  obtain ⟨r, hserved⟩ := h.served
  simp [hserved]

theorem Linearises.not_waiting : (t.port p).waiting = none := by
  obtain ⟨r, hserved⟩ := h.served
  simp [hserved, PortState.waiting]

/-- A command that waits on the other port goes on waiting, and has lost one conflict more. -/
theorem Linearises.other_waiting {d : Command} (hd : (s.port p.other).waiting = some d) :
    (t.port p.other).waiting = some d ∧ (t.port p.other).losses = (s.port p.other).losses + 1 := by
  obtain ⟨hlatch, hres⟩ := State.waiting_eq_some.1 hd
  rw [h.passed, PortState.passedOver_of_waiting (by simp [hlatch]) hres]
  exact ⟨State.waiting_eq_some.2 ⟨hlatch, hres⟩, rfl⟩

end

/-- When neither port has lost more than the bound, the arbiter's choice is the free draw. -/
theorem arbiter_eq_P_of_fair {s : State} (hP : s.portP.losses ≤ Config.arbPatience)
    (hK : s.portK.losses ≤ Config.arbPatience) : s.arbiter = .P ↔ Config.arbPFirst s.draws = true := by
  simp [State.arbiter, Nat.not_lt.2 hP, Nat.not_lt.2 hK]

/-- Settles O42: the arbiter's choice is linearised and passes the other command. -/
theorem conflictServesOneAndKeepsTheOther : Obligations.ConflictServesOneAndKeepsTheOther := by
  intro s c d hr hs hP hK
  refine ⟨?_, arbiter_eq_P_of_fair⟩
  cases ha : s.arbiter with
  | P =>
    obtain ⟨t, ht, hlin⟩ := step_linearises (p := .P) hr hs hP (.inr ha)
    exact .inl ⟨rfl, t, ht, hlin.not_waiting, hlin.result_isSome, hlin.other_waiting hK⟩
  | K =>
    obtain ⟨t, ht, hlin⟩ := step_linearises (p := .K) hr hs hK (.inr ha)
    exact .inr ⟨rfl, t, ht, hlin.not_waiting, hlin.result_isSome, hlin.other_waiting hP⟩

theorem Port_eq_or_eq_other (q p : Port) : q = p ∨ q = p.other := by cases q <;> cases p <;> decide

/-- Settles O43: the arbiter would have to pass over a command above the bound to pick the other one. -/
theorem starvedCommandIsServedNext : Obligations.StarvedCommandIsServedNext := by
  intro s p c hi hr hw hstarved
  have ha : s.arbiter = p := by
    refine (Port_eq_or_eq_other s.arbiter p).resolve_right fun ha => ?_
    have hle := losses_le_of_arbiter hi.oneLoser ha
    rw [Port_other_other] at hle
    exact absurd hstarved (Nat.not_lt.2 hle)
  obtain ⟨u, hu, hserves⟩ := nextCommand_of_picks hr hw (.inr ha)
  exact ⟨u, hu, hserves.serving, hserves.queue⟩

/-- Settles O58: the other port waits for nothing, so the command is linearised, and passes the response. -/
theorem overdueResponseIsPresented : Obligations.OverdueResponseIsPresented := by
  intro s p c r hr hs hw hres
  have ho : (s.port p.other).waiting = none := by simp [PortState.waiting, hres]
  obtain ⟨t, ht, hlin⟩ := step_linearises hr hs hw (.inl ho)
  refine ⟨t, ht, hlin.serving, hlin.result_isSome, fun hover => ?_, fun hfair => ?_⟩
  · rw [hlin.passed, PortState.passedOver_of_overdue hres hover]
    exact ⟨⟨rfl, rfl, rfl⟩, rfl⟩
  · rw [hlin.passed, PortState.passedOver_of_due (by simp [hres]) hfair]

/-! ### Two commands, one after the other -/

/-- Linearising a command refines the sequential rules over the list (R27, R46). -/
theorem Linearises.refinesList {s t : State} {p : Port} {i : Instr} {Q : List Packet}
    (h : Linearises s p (encode i) t) (hQ : Holds s Q) :
    Holds t (listStep p i Q).1 ∧ t.answer p = some (listStep p i Q).2 := by
  obtain ⟨u, hqueue, rfl, he⟩ := h.executed
  rw [decode_encode] at he
  obtain ⟨t', he', -, hc, hq, hanswer⟩ := exec_refinesList (hqueue ▸ hQ.consistent) (hqueue ▸ hQ.content) i
  cases he.symm.trans he'
  exact ⟨⟨hc, hq⟩, hanswer⟩

/-- With a command waiting on each port and the block's moves next, both are linearised, the arbiter's choice first; each
answer is that of the sequential rules in this order. -/
theorem two_commands_refineList {s : State} {p : Port} {i j : Instr} {Q : List Packet} (hQ : Holds s Q)
    (hr : s.resetAsserted = false) (hs : s.schedule = [] ∨ ∃ rest, s.schedule = .linearise :: .linearise :: rest)
    (hi : (s.port p).waiting = some (encode i)) (hj : (s.port p.other).waiting = some (encode j)) (ha : s.arbiter = p) :
    ∃ t, core.run 2 s = .next t ∧ t.answer p = some (listStep p i Q).2 ∧
      t.answer p.other = some (listStep p.other j (listStep p i Q).1).2 ∧
      Holds t (listStep p.other j (listStep p i Q).1).1 := by
  have hb : s.BlockMoves := hs.imp_right fun ⟨rest, h⟩ => ⟨_, h⟩
  obtain ⟨u, hu, hfirst⟩ := step_linearises hr hb hi (.inr ha)
  obtain ⟨hQu, hanswer⟩ := hfirst.refinesList hQ
  have hbu : u.BlockMoves := by
    rw [State.BlockMoves, hfirst.schedule]
    obtain hs | ⟨rest, hs⟩ := hs
    · exact .inl (by rw [hs]; rfl)
    · exact .inr ⟨rest, by rw [hs]; rfl⟩
  obtain ⟨t, ht, hsecond⟩ := step_linearises hfirst.reset hbu (hfirst.other_waiting hj).1
    (.inl (by rw [Port_other_other]; exact hfirst.not_waiting))
  obtain ⟨hQt, hanswer'⟩ := hsecond.refinesList hQu
  refine ⟨t, (run_of_step 1 hu).trans (run_of_step 0 ht), ?_, hanswer', hQt⟩
  obtain ⟨r, hserved⟩ := hfirst.served
  have hkept := hsecond.passed
  rw [Port_other_other, PortState.passedOver_of_due hfirst.result_isSome (by simp [hserved])] at hkept
  rw [State.answer, hkept]
  exact hanswer

/-- Settles O44: by the arbiter's choice. -/
theorem pushAndPopTogetherGiveOneOfTwoOutcomes : Obligations.PushAndPopTogetherGiveOneOfTwoOutcomes := by
  intro s v Q hc hq hr hs hP hK
  cases ha : s.arbiter with
  | P =>
    obtain ⟨t, ht, haP, haK, hQ⟩ := two_commands_refineList (p := .P) ⟨hc, hq⟩ hr hs hP hK ha
    exact ⟨t, _, _, ht, haP, haK, fun _ => ⟨rfl, rfl, hQ.content⟩, nofun⟩
  | K =>
    obtain ⟨t, ht, haK, haP, hQ⟩ := two_commands_refineList (p := .K) ⟨hc, hq⟩ hr hs hK hP ha
    exact ⟨t, _, _, ht, haP, haK, nofun, fun _ => ⟨rfl, rfl, hQ.content⟩⟩

end Sys2Proof.Machine
end

section
/-! Commands are answered (60_exceptions.md sections 3 and 4): one command as three steps, all outstanding commands within
four, and the bound on what the other port gets meanwhile. -/

namespace Sys2Proof.Machine

/-! ### Present, linearise and respond -/

/-- Two states are equal when their ports and their other fields are. -/
theorem State.ext_ports {s t : State} (p : Port) (hqueue : s.queue = t.queue) (hp : s.port p = t.port p)
    (ho : s.port p.other = t.port p.other) (hserving : s.serving = t.serving)
    (hreset : s.resetAsserted = t.resetAsserted) (hschedule : s.schedule = t.schedule) (hdraws : s.draws = t.draws) :
    s = t := by
  obtain ⟨_, _, _, _, _, _, _⟩ := s
  obtain ⟨_, _, _, _, _, _, _⟩ := t
  cases p <;> simp_all

/-- A response's fields that are UNSPEC depend on the draw counter, and no field on more of the state (R74). -/
theorem State.response_congr {s u : State} (h : s.draws = u.draws) (st : Status) (f : Bool)
    (sz : Option (BitVec Config.lenW)) (d : Option Packet) : s.response st f sz d = u.response st f sz d := by
  rw [response, response, h]

/-- Commands run alike in two states with the same queue, served port and draw counter. -/
theorem exec_reads_result (i : Instr) {s u : State} {p : Port} (hq : s.queue = u.queue) (hp : s.serving = p)
    (hp' : u.serving = p) (hd : s.draws = u.draws) : ∃ t v r, exec i s = .next t ∧ exec i u = .next v ∧
      OnlyAnswers s t ∧ OnlyAnswers u v ∧ t.queue = v.queue ∧ t.port p = { s.port p with result := some r } ∧
      v.port p = { u.port p with result := some r } := by
  obtain ⟨q, a, hs, hu⟩ := exec_reads i hq (hp.trans hp'.symm) hd
  subst hp
  refine ⟨_, _, State.response { s with queue := q } a.status a.flag a.size a.data, hs, hu, State.onlyAnswers_respond ..,
    State.onlyAnswers_respond .., by rw [State.respond_queue, State.respond_queue], ?_, ?_⟩
  · simpa only [State.port_with_queue] using State.respond_port_serving { s with queue := q } ..
  · rw [State.response_congr (s := { s with queue := q }) (u := { u with queue := q }) hd, ← hp']
    simpa only [State.port_with_queue] using State.respond_port_serving { u with queue := q } ..

/-- In `u` command `c` of port `p`, just presented in `s`, is at its linearisation point, with no other outstanding. -/
structure AtLinearisation (s : State) (p : Port) (c : Command) (u : State) : Prop where
  queue    : u.queue = s.queue
  serving  : u.serving = p
  reset    : u.resetAsserted = s.resetAsserted
  draws    : u.draws = s.draws
  port     : u.port p = { s.port p with latch := some c }
  other    : u.port p.other = s.port p.other

section
variable {s : State} {p : Port} {c : Command}

/-- On two free ports, presenting a command and linearising it runs it, whatever the schedule holds after. -/
theorem present_linearise {rest : List Event} (hr : s.resetAsserted = false) (hp : (s.port p).Free)
    (ho : (s.port p.other).Free) (hs : s.schedule = .present p c :: .linearise :: rest) :
    ∃ s' u, step s = .next s' ∧ step s' = exec (decode c) u ∧ AtLinearisation s p c u ∧ u.schedule = rest := by
  obtain ⟨hl, hres, hlosses⟩ := hp
  obtain ⟨hol, hores, -⟩ := ho
  refine ⟨_, _, step_present hr hl hs, State.step_block (.inr ⟨rest, by simp [hs]⟩)
    (State.nextCommand_alone (p := p) (c := c) (by simpa using hr) ?_ ?_), ?_, by simp [hs]⟩
  · simp [State.waiting_eq_some, hres]
  · simp [PortState.waiting, hol, hores]
  · refine ⟨by simp, by simp, by simp, by simp, ?_, ?_⟩
    · rw [State.port_with_schedule]
      simp [hlosses]
    · rw [State.port_with_schedule]
      simp [PortState.passedOver_of_free hol hores]

/-- A command that runs and is then delivered, with the other port free and no more moves, is a transaction (R110). -/
theorem deliver_eq_transact {u : State} (h : AtLinearisation s p c u) (hr : s.resetAsserted = false)
    (hs : s.schedule = []) (hu : u.schedule = [.deliver p]) :
    ∃ r t v, transact p c s = some (r, t) ∧ exec (decode c) u = .next v ∧ step v = .next t ∧
      t.port p = ⟨none, none, 0, r :: (s.port p).responses⟩ ∧ t.port p.other = s.port p.other ∧ t.schedule = [] := by
  obtain ⟨t, v, r, ht, hv, honly, honly', hqueue, hport, hport'⟩ :=
    exec_reads_result (decode c) (s := { s with serving := p }) (p := p) h.queue.symm rfl h.serving h.draws.symm
  rw [h.port] at hport'
  rw [State.port_with_serving s p p] at hport
  have hother : t.port p.other = s.port p.other := honly.other.trans (State.port_with_serving ..)
  have hother' : v.port p.other = s.port p.other := h.serving ▸ honly'.other.trans (h.serving.symm ▸ h.other)
  have hdelivered : (t.port p).delivered = ⟨none, none, 0, r :: (s.port p).responses⟩ := by
    rw [hport, PortState.delivered_of_result rfl]
  have hdelivered' : (v.port p).delivered = ⟨none, none, 0, r :: (s.port p).responses⟩ := by
    rw [hport', PortState.delivered_of_result rfl]
  have hend : v.later.setPort p (v.port p).delivered = t.setPort p (t.port p).delivered := by
    apply State.ext_ports p
    · simp [hqueue]
    · simp [hdelivered, hdelivered']
    · simp [hother, hother']
    · simp [honly.serving, honly'.serving, h.serving]
    · simp [honly.reset, honly'.reset, h.reset]
    · simp [honly.schedule, honly'.schedule, hu, hs]
    · simp [honly.draws, honly'.draws, h.draws]
  have hstep : step v = .next (v.later.setPort p (v.port p).delivered) :=
    step_deliver (honly'.reset.trans (h.reset.trans hr)) (honly'.schedule.trans hu)
  refine ⟨r, t.setPort p (t.port p).delivered, v, ?_, hv, hend ▸ hstep, ?_, ?_, ?_⟩
  · simp [transact, ht, hport]
  · simp [hdelivered]
  · simp [hother]
  · simp [honly.schedule, hs]

end

/-- Settles O49: the first two moves run the command in a state like that of the sequential step, and delivering its
response ends as `transact` does. -/
theorem threeStepsMakeOneTransaction : Obligations.ThreeStepsMakeOneTransaction := by
  intro s p c hr hP hK
  obtain ⟨hp, ho⟩ : (s.port p).Free ∧ (s.port p.other).Free := by
    cases p
    · exact ⟨hP, hK⟩
    · exact ⟨hK, hP⟩
  obtain ⟨s', u, hpresent, hlinearise, hat, hu⟩ := present_linearise (c := c)
    (s := { s with schedule := [.present p c, .linearise, .deliver p] }) (rest := [.deliver p]) hr (by simpa using hp)
    (by simpa using ho) rfl
  have hat' : AtLinearisation { s with schedule := [] } p c u :=
    ⟨hat.queue, hat.serving, hat.reset, hat.draws, by simpa using hat.port, by simpa using hat.other⟩
  obtain ⟨r, t, v, ht, hv, hdeliver, hport, hother, hschedule⟩ := deliver_eq_transact hat' hr rfl hu
  rw [State.port_with_schedule] at hport hother
  refine ⟨r, t, ht, ?_, by simp [hport], hschedule, ?_⟩
  · exact (run_of_step 2 hpresent).trans ((run_of_step 1 (hlinearise.trans hv)).trans (run_of_step 0 hdeliver))
  · have hlatch : (t.port p).latch = none ∧ (t.port p.other).latch = none := by simp [hport, hother, ho.1]
    cases p
    · exact hlatch
    · exact hlatch.symm

end Sys2Proof.Machine
end

section
/-! Every command is answered (60_exceptions.md sections 3 and 4): whatever is outstanding within four steps of the block,
and, while a command is not answered, the bound on what the other port gets. -/

namespace Sys2Proof.Machine

namespace PortState

/-! ### What a move does to the answers of a port -/

/-- The responses of a port with the one that its outstanding command is to have. -/
def owed (ps : PortState) : Nat := ps.responses.length + if ps.latch.isSome then 1 else 0

/-- From `ps` to `ps'` no response is lost, and none is owed more or less. -/
structure Answers (ps ps' : PortState) : Prop where
  owed   : ps'.owed = ps.owed
  suffix : ps.responses <:+ ps'.responses

theorem Answers.refl (ps : PortState) : Answers ps ps := ⟨rfl, List.suffix_refl _⟩

theorem Answers.trans {a b c : PortState} (h : Answers a b) (h' : Answers b c) : Answers a c :=
  ⟨h'.owed.trans h.owed, h.suffix.trans h'.suffix⟩

/-- The steps the block still needs for a port: to linearise its command, and to present the response. -/
def movesDue (ps : PortState) : Nat :=
  match ps.latch, ps.result with
  | none, _ => 0
  | some _, none => 2
  | some _, some _ => 1

theorem movesDue_le_two (ps : PortState) : ps.movesDue ≤ 2 := by
  unfold movesDue; split <;> decide

theorem movesDue_eq_zero {ps : PortState} : ps.movesDue = 0 ↔ ps.latch = none := by
  unfold movesDue; split <;> simp [*]

theorem movesDue_passedOver (ps : PortState) : ps.passedOver.movesDue ≤ ps.movesDue := by
  obtain ⟨-, -, he⟩ | ⟨-, -, he⟩ | ⟨r, -, -, he⟩ := ps.passedOver_cases
  · rw [he]
  · rw [he]; exact Nat.le_refl _
  · rw [he]; exact Nat.zero_le _

/-- A port with nothing waiting needs at most to present a response. -/
theorem movesDue_delivered {ps : PortState} (hw : ps.waiting = none) : ps.delivered.movesDue = 0 := by
  cases hr : ps.result with
  | none =>
    have hl : ps.latch = none := by simpa [PortState.waiting, hr] using hw
    simp [PortState.delivered, hr, movesDue_eq_zero, hl]
  | some r => simp [delivered_of_result hr, movesDue_eq_zero]

section
variable {ps : PortState} (h : ps.Consistent)
include h

/-- Presenting a response answers the command it is owed to. -/
theorem Consistent.answers_present {r : Response} (hr : ps.result = some r) :
    Answers ps { latch := none, result := none, losses := 0, responses := r :: ps.responses } :=
  ⟨by simp [PortState.owed, h.due (by simp [hr])], List.suffix_cons r ps.responses⟩

theorem Consistent.answers_delivered : Answers ps ps.delivered := by
  cases hr : ps.result with
  | none => simpa [PortState.delivered, hr] using Answers.refl ps
  | some r => exact delivered_of_result hr ▸ h.answers_present hr

theorem Consistent.answers_passedOver : Answers ps ps.passedOver := by
  obtain ⟨-, -, he⟩ | ⟨-, -, he⟩ | ⟨r, hr, -, he⟩ := ps.passedOver_cases
  · rw [he]; exact Answers.refl ps
  · rw [he]; exact ⟨rfl, List.suffix_refl _⟩
  · rw [he]; exact h.answers_present hr

end

end PortState

theorem Linearises.movesDue {s t : State} {p : Port} {c : Command} (h : Linearises s p c t) :
    (s.port p).movesDue = 2 ∧ (t.port p).movesDue = 1 ∧ PortState.Answers (s.port p) (t.port p) := by
  obtain ⟨hl, hr⟩ := State.waiting_eq_some.1 h.waiting
  obtain ⟨r, hserved⟩ := h.served
  rw [hserved]
  exact ⟨by simp [PortState.movesDue, hl, hr], by simp [PortState.movesDue, hl], rfl, List.suffix_refl _⟩

/-! ### The block answers whatever is outstanding -/

/-- The steps the block still needs for both ports. -/
def State.movesDue (s : State) : Nat := s.portP.movesDue + s.portK.movesDue

theorem State.movesDue_eq (s : State) (p : Port) : s.movesDue = (s.port p).movesDue + (s.port p.other).movesDue := by
  cases p
  · rfl
  · exact Nat.add_comm ..

/-- A claim about both ports from one about a port and one about the other. -/
theorem forall_port {motive : Port → Prop} (p : Port) (hp : motive p) (ho : motive p.other) (x : Port) : motive x := by
  obtain rfl | rfl := Port_eq_or_eq_other x p
  · exact hp
  · exact ho

/-- A state in which only the block moves, and reset does not hold it up. -/
structure Quiescent (s : State) : Prop where
  inv      : s.Inv
  awake    : s.resetAsserted = false
  schedule : s.schedule = []

/-- From `s` the block comes to `t`, which is again quiescent, and the answers of both ports are kept. -/
structure Proceeds (s t : State) : Prop where
  quiescent : Quiescent t
  answers   : ∀ p, PortState.Answers (s.port p) (t.port p)

section
variable {s : State} (h : Quiescent s)
include h

theorem linearise_proceeds {p : Port} {c : Command} (hw : (s.port p).waiting = some c) (hp : s.Picks p) :
    ∃ t, step s = .next t ∧ Proceeds s t ∧ t.movesDue ≤ s.movesDue - 1 := by
  obtain ⟨t, ht, hlin⟩ := step_linearises h.awake (.inl h.schedule) hw hp
  obtain ⟨htwo, hone, hanswers⟩ := hlin.movesDue
  have hle := hlin.passed ▸ (s.port p.other).movesDue_passedOver
  refine ⟨t, ht, ⟨⟨hlin.inv h.inv, hlin.reset, by simp [hlin.schedule, h.schedule]⟩, ?_⟩, ?_⟩
  · exact forall_port p hanswers (hlin.passed ▸ (h.inv.port p.other).answers_passedOver)
  · rw [t.movesDue_eq p, s.movesDue_eq p]
    omega

theorem deliver_proceeds {p : Port} (hw : (s.port p).waiting = none) :
    Proceeds s (s.deliver p) ∧ (s.deliver p).movesDue = (s.port p.other).movesDue := by
  have hport := h.inv.port p
  obtain ⟨hc, hle⟩ := hport.delivered
  have hdeliver : s.deliver p = s.setPort p (s.port p).delivered := by simp [State.deliver, h.awake]
  rw [hdeliver]
  refine ⟨⟨⟨h.inv.setPort p hc (by simp [h.awake]) hle, by simp [h.awake], by simp [h.schedule]⟩, ?_⟩, ?_⟩
  · exact forall_port p (by simpa using hport.answers_delivered) (by simpa using PortState.Answers.refl _)
  · simp [State.movesDue_eq _ p, PortState.movesDue_delivered hw]

theorem deliverAny_proceeds (hP : s.portP.waiting = none) (hK : s.portK.waiting = none) :
    Proceeds s s.deliverAny ∧ s.deliverAny.movesDue ≤ s.movesDue - 1 := by
  cases hr : s.portP.result with
  | some r =>
    obtain ⟨hproceeds, hdue⟩ := deliver_proceeds h (p := .P) hP
    have hlatch : s.portP.movesDue ≠ 0 := by
      have := h.inv.portP.due (by simp [hr])
      rw [Ne, PortState.movesDue_eq_zero]
      exact Option.isSome_iff_ne_none.1 this
    have hany : s.deliverAny = s.deliver .P := by simp [State.deliverAny, hr]
    rw [hany]
    refine ⟨hproceeds, ?_⟩
    rw [hdue, s.movesDue_eq .P]
    simp only [State.port_P] at hlatch ⊢
    omega
  | none =>
    obtain ⟨hproceeds, hdue⟩ := deliver_proceeds h (p := .K) hK
    have hlatch : s.portP.latch = none := by simpa [PortState.waiting, hr] using hP
    have hany : s.deliverAny = s.deliver .K := by simp [State.deliverAny, hr]
    rw [hany]
    refine ⟨hproceeds, ?_⟩
    rw [hdue, Port_other_K, State.port_P, PortState.movesDue_eq_zero.2 hlatch]
    exact Nat.zero_le _

/-- One step of the block: it needs one step less, if it needed any. -/
theorem step_proceeds : ∃ t, step s = .next t ∧ Proceeds s t ∧ t.movesDue ≤ s.movesDue - 1 := by
  cases hn : s.nextCommand with
  | some cu =>
    obtain ⟨-, p, hw, hcases⟩ := State.nextCommand_cases hn
    exact linearise_proceeds h hw (hcases.imp And.left fun ⟨_, _, ha, _⟩ => ha)
  | none =>
    obtain hr | ⟨hP, hK⟩ := State.nextCommand_none hn
    · simp [h.awake] at hr
    · exact ⟨_, (step_of_nextCommand_none hn).1 h.schedule, deliverAny_proceeds h hP hK⟩

end

theorem run_proceeds (n : Nat) {s : State} (h : Quiescent s) :
    ∃ t, core.run n s = .next t ∧ Proceeds s t ∧ t.movesDue ≤ s.movesDue - n := by
  induction n generalizing s with
  | zero => exact ⟨s, rfl, ⟨h, fun p => PortState.Answers.refl _⟩, Nat.le_refl _⟩
  | succ n ih =>
    obtain ⟨u, hu, hfirst, hle⟩ := step_proceeds h
    obtain ⟨t, ht, hrest, hle'⟩ := ih hfirst.quiescent
    refine ⟨t, (run_of_step n hu).trans ht, ⟨hrest.quiescent, fun p => ?_⟩, by omega⟩
    exact (hfirst.answers p).trans (hrest.answers p)

/-- Settles O48: each port needs at most two steps, and then nothing is outstanding. -/
theorem outstandingCommandsAreAnswered : Obligations.OutstandingCommandsAreAnswered := by
  intro s hi hr hs
  obtain ⟨t, ht, ⟨hq, hanswers⟩, hle⟩ := run_proceeds 4 ⟨hi, hr, hs⟩
  have hP := s.portP.movesDue_le_two
  have hK := s.portK.movesDue_le_two
  have hdone : t.portP.movesDue = 0 ∧ t.portK.movesDue = 0 := by
    simp only [State.movesDue] at hle
    omega
  rw [PortState.movesDue_eq_zero, PortState.movesDue_eq_zero] at hdone
  refine ⟨t, ht, ⟨hq.schedule, hdone⟩, fun p => ⟨?_, (hanswers p).suffix⟩⟩
  have hlatch : (t.port p).latch = none := by
    cases p
    · exact hdone.1
    · exact hdone.2
  have howed := (hanswers p).owed
  simpa [PortState.owed, hlatch] using howed

end Sys2Proof.Machine
end

section
/-! No port starves the other (60_exceptions.md section 4): while a command is not answered, every response the other port
gets uses up a part of a bounded allowance. -/

namespace Sys2Proof.Machine

/-! ### Responses are never lost -/

theorem PortState.responses_delivered (ps : PortState) : ps.responses <:+ ps.delivered.responses := by
  cases hr : ps.result with
  | none => simp [PortState.delivered, hr]
  | some r => exact PortState.delivered_of_result hr ▸ List.suffix_cons r _

theorem PortState.responses_passedOver (ps : PortState) : ps.responses <:+ ps.passedOver.responses := by
  obtain ⟨-, -, he⟩ | ⟨-, -, he⟩ | ⟨r, -, -, he⟩ := ps.passedOver_cases
  · rw [he]
  · rw [he]
  · rw [he]; exact List.suffix_cons r _

namespace StepMove

variable {s t : State} (h : StepMove s t)
include h

theorem responses : ∀ x, (s.port x).responses <:+ (t.port x).responses := by
  cases h with
  | idle h => simp [h]
  | reset b _ h =>
    subst h
    rintro (_ | _) <;> cases b <;> exact List.suffix_refl _
  | present p c _ _ h =>
    subst h
    refine forall_port p ?_ ?_ <;> simp
  | linearise p c h =>
    obtain ⟨r, hserved⟩ := h.served
    refine forall_port p ?_ ?_
    · simp [hserved]
    · rw [h.passed]
      exact PortState.responses_passedOver _
  | deliver p _ h =>
    subst h
    refine forall_port p ?_ ?_
    · simpa using PortState.responses_delivered _
    · simp

theorem schedule : t.schedule = s.schedule.tail := by
  cases h with
  | idle h => simp [h]
  | reset b _ h => subst h; cases b <;> rfl
  | present p c _ _ h => simp [h]
  | linearise p c h => exact h.schedule
  | deliver p _ h => simp [h]

end StepMove

/-! ### The inversion of a run -/

theorem run_succ_eq_next {n : Nat} {s t : State} (h : core.run (n + 1) s = .next t) :
    ∃ u, step s = .next u ∧ core.run n u = .next t := by
  cases hs : step s with
  | next u => exact ⟨u, rfl, (run_of_step n hs).symm.trans h⟩
  | fault r => simp [Host.Core.run, core, hs] at h
  | refused r => simp [Host.Core.run, core, hs] at h

theorem run_responses {n : Nat} {s t : State} (h : core.run n s = .next t) (x : Port) :
    (s.port x).responses <:+ (t.port x).responses := by
  induction n generalizing s with
  | zero => cases h; exact List.suffix_refl _
  | succ n ih =>
    obtain ⟨u, hu, hrun⟩ := run_succ_eq_next h
    exact ((step_move hu).responses x).trans (ih hrun)

/-! ### The allowance of the other port -/

namespace PortState

/-- The responses that a port has got or that are due on it. -/
def given (ps : PortState) : Nat := ps.responses.length + if ps.result.isSome then 1 else 0

/-- How many commands of the other port may still be linearised before the command outstanding here is answered: with the
bound B, up to B + 1 while it waits and as many again while its response is due (log entry 7). -/
def allowance (ps : PortState) : Nat :=
  (Config.arbPatience + 1 - ps.losses) + if ps.result.isSome then 0 else Config.arbPatience + 1

@[simp] theorem given_delivered (ps : PortState) : ps.delivered.given = ps.given := by
  cases hr : ps.result with
  | none => simp [delivered, hr]
  | some r => simp [delivered_of_result hr, given, hr]

@[simp] theorem given_passedOver (ps : PortState) : ps.passedOver.given = ps.given := by
  obtain ⟨-, -, he⟩ | ⟨-, -, he⟩ | ⟨r, hr, -, he⟩ := ps.passedOver_cases
  · rw [he]
  · rw [he]; rfl
  · rw [he]; simp [given, hr]

end PortState

/-- What the other port has got, is due, and may still get before port `p`'s command is answered. -/
def potential (s : State) (p : Port) : Nat := (s.port p.other).given + (s.port p).allowance

/-- A command is outstanding on port `p`, and no reset is to come. -/
structure Outstanding (s : State) (p : Port) : Prop where
  inv     : s.Inv
  awake   : s.resetAsserted = false
  noReset : ∀ b, Event.reset b ∉ s.schedule
  latched : (s.port p).latch.isSome = true

section
variable {s t : State} {p : Port} {c : Command} (h : Outstanding s p)
include h

omit h in
/-- Linearising port `p`'s own command leaves the allowance for its response. -/
theorem potential_of_served (hlin : Linearises s p c t) :
    potential t p ≤ potential s p ∧ (t.port p).latch.isSome = true := by
  obtain ⟨r, hserved⟩ := hlin.served
  obtain ⟨hl, hr⟩ := State.waiting_eq_some.1 hlin.waiting
  simp [potential, hlin.passed, hserved, PortState.allowance, hr, hl]

/-- While its command is not answered, port `p` was passed no more often than the bound. -/
theorem losses_le_of_passed (hlin : Linearises s p.other c t)
    (hdue : (s.port p).result.isSome = true → (s.port p).losses ≤ Config.arbPatience) :
    (s.port p).losses ≤ Config.arbPatience := by
  by_cases hr : (s.port p).result.isSome = true
  · exact hdue hr
  · have hw : (s.port p).waiting = (s.port p).latch := by
      rw [Option.not_isSome_iff_eq_none] at hr
      simp [PortState.waiting, hr]
    have hle := h.inv.losses_le_of_picks hlin.picked
    rw [Port_other_other, hw] at hle
    exact hle h.latched

/-- Linearising a command of the other port uses up one of the allowance, unless port `p` is answered by it. -/
theorem potential_of_passed (hlin : Linearises s p.other c t)
    (hsame : (t.port p).responses.length = (s.port p).responses.length) :
    potential t p ≤ potential s p ∧ (t.port p).latch.isSome = true := by
  obtain ⟨r, hserved⟩ := hlin.served
  obtain ⟨-, hr⟩ := State.waiting_eq_some.1 hlin.waiting
  have hpassed := hlin.passed
  rw [Port_other_other] at hpassed
  obtain ⟨hl, -⟩ | ⟨-, hdue, he⟩ | ⟨a, -, -, he⟩ := (s.port p).passedOver_cases
  · simpa [hl] using h.latched
  · have hle := losses_le_of_passed h hlin hdue
    rw [he] at hpassed
    refine ⟨?_, by simpa [hpassed] using h.latched⟩
    simp only [potential, hpassed, hserved, PortState.given, PortState.allowance, hr]
    simp
    omega
  · rw [hpassed, he] at hsame
    simp at hsame

/-- A move without a reset that does not answer port `p` raises no potential. -/
theorem potential_of_move (hmove : StepMove s t)
    (hsame : (t.port p).responses.length = (s.port p).responses.length) :
    potential t p ≤ potential s p ∧ t.resetAsserted = false ∧ (t.port p).latch.isSome = true := by
  cases hmove with
  | idle ht =>
    subst ht
    exact ⟨by simp [potential], h.awake, by simpa using h.latched⟩
  | reset b hs ht =>
    obtain ⟨rest, hs⟩ := hs
    exact absurd (by simp [hs]) (h.noReset b)
  | present x c hr hl ht =>
    subst ht
    obtain rfl | rfl := Port_eq_or_eq_other x p
    · simpa [hl] using h.latched
    · exact ⟨by simp [potential, PortState.given], by simpa using h.awake, by simpa using h.latched⟩
  | linearise x c hlin =>
    obtain rfl | rfl := Port_eq_or_eq_other x p
    · obtain ⟨hle, hl⟩ := potential_of_served hlin
      exact ⟨hle, hlin.reset, hl⟩
    · obtain ⟨hle, hl⟩ := potential_of_passed h hlin hsame
      exact ⟨hle, hlin.reset, hl⟩
  | deliver x hr ht =>
    subst ht
    obtain rfl | rfl := Port_eq_or_eq_other x p
    · cases hres : (s.port x).result with
      | some r => simp [PortState.delivered_of_result hres] at hsame
      | none =>
        have hstays : (s.port x).delivered = s.port x := by simp [PortState.delivered, hres]
        rw [hstays]
        exact ⟨by simp [potential], by simpa using h.awake, by simpa using h.latched⟩
    · exact ⟨by simp [potential], by simpa using h.awake, by simpa using h.latched⟩

theorem Outstanding.step (hstep : Machine.step s = .next t)
    (hsame : (t.port p).responses.length = (s.port p).responses.length) :
    potential t p ≤ potential s p ∧ Outstanding t p := by
  have hmove := step_move hstep
  obtain ⟨hle, hr, hl⟩ := potential_of_move h hmove hsame
  refine ⟨hle, hmove.inv h.inv, hr, fun b hb => h.noReset b ?_, hl⟩
  rw [hmove.schedule] at hb
  exact List.mem_of_mem_tail hb

theorem run_responses_le_potential (n : Nat) (hrun : core.run n s = .next t)
    (hsame : (t.port p).responses.length = (s.port p).responses.length) :
    (t.port p.other).responses.length ≤ potential s p := by
  induction n generalizing s with
  | zero =>
    cases hrun
    rw [potential, PortState.given]
    omega
  | succ n ih =>
    obtain ⟨u, hu, hrest⟩ := run_succ_eq_next hrun
    have hfirst := ((step_move hu).responses p).length_le
    have hlast := (run_responses hrest p).length_le
    obtain ⟨hle, hu'⟩ := h.step hu (by omega)
    exact (ih hu' hrest (by omega)).trans hle

end

/-- Settles O59: the potential is at most one response due and twice the bound and one more. -/
theorem noPortStarvesTheOther : Obligations.NoPortStarvesTheOther := by
  intro s t p n hi hr hreset hl hrun hsame
  have hle := run_responses_le_potential ⟨hi, hr, hreset, hl⟩ n hrun hsame
  have hgiven : (s.port p.other).given ≤ (s.port p.other).responses.length + 1 := by
    unfold PortState.given
    split <;> omega
  have hallowance : (s.port p).allowance ≤ 2 * Config.arbPatience + 2 := by
    unfold PortState.allowance
    split <;> omega
  rw [potential] at hle
  omega

end Sys2Proof.Machine
end
